-- ==== Sys2Proof/Word.lean ====
section
/-! DEFINITION. The word types of the BigInt Engine (00_scope.md R11): a 32-bit bus word, a byte, and the number
of an operand register. -/

namespace Sys2Proof

/-- A 32-bit control-register or command word (10_state.md section 3, 30_encoding.md R101). -/
abbrev Word := BitVec 32

/-- A byte: a width tag, an immediate, a byte of a FixedInt. -/
abbrev Byte := BitVec 8

/-- An operand register number R0..R15 (10_state.md R21, 30_encoding.md R102: all 16 values are valid). -/
abbrev Reg := Fin 16

end Sys2Proof
end

