-- ==== Sys2Proof/Syntax.lean ====
section
/-! DEFINITION. The commands of the BigInt Engine, one constructor per row of the opcode map (30_encoding.md R108),
the pseudo-commands (R113), and the command errors (60_exceptions.md R283). -/

namespace Sys2Proof

/-- A command with its decoded fields, in the operand order of 30_encoding.md R112. Registers `a b c d` are the
fields A to D, `k` is immediate K and `v` is immediate V (R102). -/
inductive Instr where
  /-- `CREATE rA, K`: create (40_construct.md R141). -/
  | create (a : Reg) (k : Byte)
  /-- `SMALL rA, V, K`: createFromSmall (R142). -/
  | small (a : Reg) (v k : Byte)
  /-- `WIDEN rA, rB, K`: widen (R143). -/
  | widen (a b : Reg) (k : Byte)
  /-- `ASSIGN rA, rB`: assign (R144). -/
  | assign (a b : Reg)
  /-- `CLEAR rA`: assign from null (R145). -/
  | clear (a : Reg)
  /-- `EQ rA, rB`: equals (41_compare.md R163). -/
  | eq (a b : Reg)
  /-- `NZ rA`: isNonZero (R164). -/
  | nz (a : Reg)
  /-- `GT rA, rB`: greater (R165). -/
  | gt (a b : Reg)
  /-- `GE rA, rB`: greaterOrEqual (R166). -/
  | ge (a b : Reg)
  /-- `SDC rA`: significantDigitCount (R167). -/
  | sdc (a : Reg)
  /-- `EVEN rA`: isEven (R168). -/
  | even (a : Reg)
  /-- `SHL rA, K`: shiftDigitsLeft (42_arith.md R181). -/
  | shl (a : Reg) (k : Byte)
  /-- `ADD rA, rB`: add (R182). -/
  | add (a b : Reg)
  /-- `SUB rA, rB`: sub (R183). -/
  | sub (a b : Reg)
  /-- `MUL rA, rB`: multiply (R186). -/
  | mul (a b : Reg)
  /-- `DIVREM rA, rB, rC, rD`: divideAndRemainder (43_divide.md R202). -/
  | divrem (a b c d : Reg)
  /-- `DIV rA, rB`: divide (R203). -/
  | div (a b : Reg)
  /-- `MOD rA, rB`: modulo (R204). -/
  | mod (a b : Reg)
  /-- `MULMOD rA, rB, rC`: multiplyModulo (44_modexp.md R222). -/
  | mulmod (a b c : Reg)
  /-- `POWMOD rA, rB, rC, rD`: power_mod (R224). -/
  | powmod (a b c d : Reg)
deriving DecidableEq, Repr

/-- The pseudo-commands of the assembler (30_encoding.md R113). None has an opcode of its own. -/
inductive Pseudo where
  | sqr (a : Reg)
  | sqrmod (a c : Reg)
  | lt (a b : Reg)
  | le (a b : Reg)
  | zero (a : Reg)
  /-- `COPY rA, rB, K`, where the programmer writes for K the width of rB. -/
  | copy (a b : Reg) (k : Byte)
deriving DecidableEq, Repr

/-- The command errors (60_exceptions.md R283). A command that ends in one has changed no operand register and no
RESULT (R290). -/
inductive CmdError where
  /-- OP is not an opcode of 30_encoding.md R108 (R109). -/
  | illegalOpcode
  /-- A must-be-zero bit of the command is 1 (R107). -/
  | reservedField
  /-- A width immediate is 0 or above WMAX (R103). -/
  | badWidth
  /-- A register the command reads is unallocated (60_exceptions.md R285). -/
  | unallocated
  /-- Registers that must share a width do not (R286). -/
  | widthMismatch
  /-- DIVREM names one register for both results (R288). -/
  | operandConflict
  /-- The divisor or modulus is 0 (R287). -/
  | divZero
deriving DecidableEq, Repr

end Sys2Proof
end

