-- ==== Sys2Proof/WellFormed.lean ====
section
/-! DEFINITION. The checks a command can fail by its own fields alone, without a look at the operand registers:
the width immediate (30_encoding.md R103) and DIVREM's two destinations (60_exceptions.md R288). Every field value
is encodable, so an ill-formed command still has a word and decodes: it is issued and ends in a command error. -/

namespace Sys2Proof

/-- The width immediate of CREATE, SMALL and WIDEN is legal: `1 <= K <= WMAX` (30_encoding.md R103). -/
def widthLegal (wmax k : Byte) : Bool :=
  decide (k ≠ 0#8) && decide (k ≤ wmax)

/-- The command's own fields break no rule, on an engine with this WMAX. -/
def Instr.wellFormed (wmax : Byte) : Instr → Bool
  | .create _ k => widthLegal wmax k
  | .small _ _ k => widthLegal wmax k
  | .widen _ _ k => widthLegal wmax k
  | .divrem a b _ _ => decide (a ≠ b)
  | .assign _ _ => true
  | .clear _ => true
  | .eq _ _ => true
  | .nz _ => true
  | .gt _ _ => true
  | .ge _ _ => true
  | .sdc _ => true
  | .even _ => true
  | .shl _ _ => true
  | .add _ _ => true
  | .sub _ _ => true
  | .mul _ _ => true
  | .div _ _ => true
  | .mod _ _ => true
  | .mulmod _ _ _ => true
  | .powmod _ _ _ _ => true

end Sys2Proof
end

