-- ==== Sys2Proof/Decode.lean ====
section
/-! DEFINITION. Command words: their fields (30_encoding.md R102), the decoder (R111), total on every word, the
encoder (R105, R108), the assembler form (R112), the pseudo-commands (R113) and the error codes (60_exceptions.md
R283). -/

namespace Sys2Proof

/-! ### Fields (30_encoding.md R102) -/

/-- OP, bits [7:0]. -/
def fieldOp (w : Word) : Byte := w.extractLsb' 0 8

/-- A, bits [11:8]. -/
def fieldA (w : Word) : Reg := (w.extractLsb' 8 4).toFin

/-- B, bits [15:12]. -/
def fieldB (w : Word) : Reg := (w.extractLsb' 12 4).toFin

/-- C, bits [19:16]. -/
def fieldC (w : Word) : Reg := (w.extractLsb' 16 4).toFin

/-- D, bits [23:20]. -/
def fieldD (w : Word) : Reg := (w.extractLsb' 20 4).toFin

/-- V, bits [23:16], the value immediate of format S (R104). -/
def fieldV (w : Word) : Byte := w.extractLsb' 16 8

/-- K, bits [31:24], the width or shift immediate of formats K and S (R103). -/
def fieldK (w : Word) : Byte := w.extractLsb' 24 8

/-! ### Decoding (30_encoding.md R108, R111) -/

/-- One row of the opcode map whose OP has been found: the word selects it when it matches under the row's mask, and
breaks a must-be-zero bit otherwise (R107, R108). -/
def decodeRow (w hit mask : Word) (i : Instr) : Except CmdError Instr :=
  if w &&& mask = hit then .ok i else .error .reservedField

/-- `decode(word)` of R111. The rows stand as in the opcode map R108, with their match and mask words. -/
def decode (w : Word) : Except CmdError Instr :=
  match (fieldOp w).toNat with
  | 0x01 => decodeRow w 0x00000001#32 0x00FFF0FF#32 (.create (fieldA w) (fieldK w))
  | 0x02 => decodeRow w 0x00000002#32 0x0000F0FF#32 (.small (fieldA w) (fieldV w) (fieldK w))
  | 0x03 => decodeRow w 0x00000003#32 0x00FF00FF#32 (.widen (fieldA w) (fieldB w) (fieldK w))
  | 0x04 => decodeRow w 0x00000004#32 0xFFFF00FF#32 (.assign (fieldA w) (fieldB w))
  | 0x05 => decodeRow w 0x00000005#32 0xFFFFF0FF#32 (.clear (fieldA w))
  | 0x08 => decodeRow w 0x00000008#32 0xFFFF00FF#32 (.eq (fieldA w) (fieldB w))
  | 0x09 => decodeRow w 0x00000009#32 0xFFFFF0FF#32 (.nz (fieldA w))
  | 0x0A => decodeRow w 0x0000000A#32 0xFFFF00FF#32 (.gt (fieldA w) (fieldB w))
  | 0x0B => decodeRow w 0x0000000B#32 0xFFFF00FF#32 (.ge (fieldA w) (fieldB w))
  | 0x0C => decodeRow w 0x0000000C#32 0xFFFFF0FF#32 (.sdc (fieldA w))
  | 0x0D => decodeRow w 0x0000000D#32 0xFFFFF0FF#32 (.even (fieldA w))
  | 0x10 => decodeRow w 0x00000010#32 0x00FFF0FF#32 (.shl (fieldA w) (fieldK w))
  | 0x11 => decodeRow w 0x00000011#32 0xFFFF00FF#32 (.add (fieldA w) (fieldB w))
  | 0x12 => decodeRow w 0x00000012#32 0xFFFF00FF#32 (.sub (fieldA w) (fieldB w))
  | 0x13 => decodeRow w 0x00000013#32 0xFFFF00FF#32 (.mul (fieldA w) (fieldB w))
  | 0x14 => decodeRow w 0x00000014#32 0xFF0000FF#32 (.divrem (fieldA w) (fieldB w) (fieldC w) (fieldD w))
  | 0x15 => decodeRow w 0x00000015#32 0xFFFF00FF#32 (.div (fieldA w) (fieldB w))
  | 0x16 => decodeRow w 0x00000016#32 0xFFFF00FF#32 (.mod (fieldA w) (fieldB w))
  | 0x18 => decodeRow w 0x00000018#32 0xFFF000FF#32 (.mulmod (fieldA w) (fieldB w) (fieldC w))
  | 0x19 => decodeRow w 0x00000019#32 0xFF0000FF#32 (.powmod (fieldA w) (fieldB w) (fieldC w) (fieldD w))
  | _ => .error .illegalOpcode

/-- The instruction the decoder reads from a command whose `nbits` low bits are `w` and whose other bits are 0. Every
command is one 32-bit word (R101), written to CMD in one access, so it has no byte order of its own (20_memory.md
R79); a longer pattern is no command. -/
def decodeTableWord (nbits w : Nat) : Option Instr :=
  if nbits ≤ 32 then (decode (BitVec.ofNat 32 (w % 2 ^ nbits))).toOption else none

/-! ### Encoding (30_encoding.md R105, R108) -/

/-- A register number as its 4-bit field. -/
def regBits (r : Reg) : BitVec 4 := BitVec.ofNat 4 r.val

/-- Format R: `00000000 dddd cccc bbbb aaaa oooooooo`. -/
def formatR (d c b a : Reg) (op : Byte) : Word :=
  0#8 ++ regBits d ++ regBits c ++ regBits b ++ regBits a ++ op

/-- Format K: `kkkkkkkk 0000 0000 bbbb aaaa oooooooo`. -/
def formatK (k : Byte) (b a : Reg) (op : Byte) : Word :=
  k ++ 0#4 ++ 0#4 ++ regBits b ++ regBits a ++ op

/-- Format S: `kkkkkkkk vvvv vvvv 0000 aaaa oooooooo`. -/
def formatS (k v : Byte) (a : Reg) (op : Byte) : Word :=
  k ++ v ++ 0#4 ++ regBits a ++ op

/-- The command's word. A field the command does not use is 0 (R107). -/
def encode : Instr → Word
  | .create a k => formatK k 0 a 0x01#8
  | .small a v k => formatS k v a 0x02#8
  | .widen a b k => formatK k b a 0x03#8
  | .assign a b => formatR 0 0 b a 0x04#8
  | .clear a => formatR 0 0 0 a 0x05#8
  | .eq a b => formatR 0 0 b a 0x08#8
  | .nz a => formatR 0 0 0 a 0x09#8
  | .gt a b => formatR 0 0 b a 0x0A#8
  | .ge a b => formatR 0 0 b a 0x0B#8
  | .sdc a => formatR 0 0 0 a 0x0C#8
  | .even a => formatR 0 0 0 a 0x0D#8
  | .shl a k => formatK k 0 a 0x10#8
  | .add a b => formatR 0 0 b a 0x11#8
  | .sub a b => formatR 0 0 b a 0x12#8
  | .mul a b => formatR 0 0 b a 0x13#8
  | .divrem a b c d => formatR d c b a 0x14#8
  | .div a b => formatR 0 0 b a 0x15#8
  | .mod a b => formatR 0 0 b a 0x16#8
  | .mulmod a b c => formatR 0 c b a 0x18#8
  | .powmod a b c d => formatR d c b a 0x19#8

/-! ### Error codes (60_exceptions.md R283) -/

/-- The code a command error leaves in STATUS.ERRCODE. -/
def errorCode : CmdError → Byte
  | .illegalOpcode => 0x01#8
  | .reservedField => 0x02#8
  | .badWidth => 0x03#8
  | .unallocated => 0x04#8
  | .widthMismatch => 0x05#8
  | .operandConflict => 0x06#8
  | .divZero => 0x07#8

/-! ### Assembler (30_encoding.md R112, R113) -/

/-- The one command a pseudo-command expands to (R113). -/
def expandPseudo : Pseudo → Instr
  | .sqr a => .mul a a
  | .sqrmod a c => .mulmod a a c
  | .lt a b => .gt b a
  | .le a b => .ge b a
  | .zero a => .clear a
  | .copy a b k => .widen a b k

/-- A register as the assembler writes it. -/
def asmReg (r : Reg) : String := "r" ++ toString r.val

/-- A line of assembler: the mnemonic, then the operands with commas between (R112). -/
def asmLine (mnemonic : String) (operands : List String) : String :=
  mnemonic ++ " " ++ ", ".intercalate operands

/-- The assembler form of a command, immediates in decimal (R112). -/
def asm : Instr → String
  | .create a k => asmLine "CREATE" [asmReg a, toString k.toNat]
  | .small a v k => asmLine "SMALL" [asmReg a, toString v.toNat, toString k.toNat]
  | .widen a b k => asmLine "WIDEN" [asmReg a, asmReg b, toString k.toNat]
  | .assign a b => asmLine "ASSIGN" [asmReg a, asmReg b]
  | .clear a => asmLine "CLEAR" [asmReg a]
  | .eq a b => asmLine "EQ" [asmReg a, asmReg b]
  | .nz a => asmLine "NZ" [asmReg a]
  | .gt a b => asmLine "GT" [asmReg a, asmReg b]
  | .ge a b => asmLine "GE" [asmReg a, asmReg b]
  | .sdc a => asmLine "SDC" [asmReg a]
  | .even a => asmLine "EVEN" [asmReg a]
  | .shl a k => asmLine "SHL" [asmReg a, toString k.toNat]
  | .add a b => asmLine "ADD" [asmReg a, asmReg b]
  | .sub a b => asmLine "SUB" [asmReg a, asmReg b]
  | .mul a b => asmLine "MUL" [asmReg a, asmReg b]
  | .divrem a b c d => asmLine "DIVREM" [asmReg a, asmReg b, asmReg c, asmReg d]
  | .div a b => asmLine "DIV" [asmReg a, asmReg b]
  | .mod a b => asmLine "MOD" [asmReg a, asmReg b]
  | .mulmod a b c => asmLine "MULMOD" [asmReg a, asmReg b, asmReg c]
  | .powmod a b c d => asmLine "POWMOD" [asmReg a, asmReg b, asmReg c, asmReg d]

end Sys2Proof
end

