-- ==== Sys2Proof/Config.lean ====
section
/-! DEFINITION. What one implementation fixes and the spec leaves OPEN (92_eei_decisions.md D3, D5): WMAX and BASE.
The third open point, LAT (D6), is no constant: it is the schedule that State holds. -/

namespace Sys2Proof.Config

/-- The implementation's choice of WMAX, less 1. It has no body that a proof could see: a claim about it holds for
every WMAX the spec allows (00_scope.md R6, log 1). -/
opaque wmaxDraw : Fin 255

/-- `WMAX`, the largest FixedInt width in bytes, `1 <= WMAX <= 255` (00_scope.md R6). -/
def wmax : Byte := BitVec.ofNat 8 (wmaxDraw.val + 1)

/-- The platform's choice of the block's place on the bus, in units of the block's size (00_scope.md R8, log 2). -/
opaque baseUnit : Nat

/-- The size of the register block in bytes (20_memory.md R61). -/
def blockSize : Nat := 0x2000

/-- `BASE`, the bus address of the register block, a multiple of 0x2000 (00_scope.md R8). -/
def base : Nat := blockSize * baseUnit

end Sys2Proof.Config
end

