-- ==== Sys2Proof/Machine/State.lean ====
section
/-! DEFINITION. The state of the machine as plain data (10_state.md R37, R39, R40), the reasons a step can stop, and
the state after reset (70_reset_and_hazards.md R321). -/

namespace Sys2Proof.Machine

open Sys2Proof

/-- An operand register: its width tag and its storage bytes. The bytes stand as one number, byte k of it being
`Ri.byte[k]` (00_scope.md R12; 10_state.md R21, R23, log 6). Width 0 is unallocated (R22). -/
structure FixedInt where
  width : Byte
  bytes : Nat
deriving DecidableEq, Repr

/-- CTRL's three enables (10_state.md R28). The reserved bits are RAZ/WI and need no storage (log 13). -/
structure Ctrl where
  donie : Bool
  errie : Bool
  progie : Bool
deriving DecidableEq, Repr

/-- STATUS but for BUSY, which is the sequencer's state (10_state.md R29, 50_command_cycle.md R251, log 12). -/
structure Status where
  done : Bool
  err : Bool
  prog : Bool
  accerr : Bool
  errcode : Byte
deriving DecidableEq, Repr

/-- The command in execution (10_state.md R37 (b), (c), (d), in the form R40 allows, log 7). -/
structure Latched where
  /-- The opcode, the register numbers and the immediates. -/
  instr : Instr
  /-- The latched `(width, value)` pairs of the registers the command reads, in the order of the "reads" column of
  30_encoding.md R110 (50_command_cycle.md R257). -/
  operands : List FixedInt
  /-- The destination registers and what the commit writes to each. -/
  writes : List (Reg × FixedInt)
  /-- What the commit writes to RESULT; `none` for a command that leaves RESULT unchanged (10_state.md R32). -/
  result : Option Word
  /-- The progress events still to be emitted, in order. -/
  pending : List Nat
deriving DecidableEq, Repr

/-- The sequencer (50_command_cycle.md R251): idle, or executing a latched command. -/
inductive Seq where
  | idle
  | exec (l : Latched)
deriving DecidableEq, Repr

/-- One move of an agent (50_command_cycle.md R263): a host access by offset in the block or by bus address
(00_scope.md R14), an engine step, or the platform's hardware reset (70_reset_and_hazards.md R321). `n` is the
access's width in bytes; a write's data is the low `8 n` bits of `v` (log 14). -/
inductive Event where
  /-- `MMIORead(off, n)`. -/
  | mmioRead (off n : Nat)
  /-- `MMIOWrite(off, n, v)`. -/
  | mmioWrite (off n : Nat) (v : Word)
  /-- `MemRead(addr, n)`. -/
  | memRead (addr n : Nat)
  /-- `MemWrite(addr, n, v)`. -/
  | memWrite (addr n : Nat) (v : Word)
  /-- The scheduler gives the engine a step. -/
  | engine
  /-- The platform asserts hardware reset. -/
  | reset
deriving DecidableEq, Repr

/-- The machine's state: what 10_state.md R39 lists, and two fields of the model's own at the end. -/
structure State where
  /-- CFG[7:0], the one part of CFG that the spec leaves to the implementation (10_state.md R27, log 1). -/
  wmax : Byte
  /-- R0..R15 (10_state.md R21). RWIDTH[i] is a view of the width tags (R34). -/
  regs : Vector FixedInt 16
  /-- CTRL (R28). -/
  ctrl : Ctrl
  /-- STATUS (R29). -/
  status : Status
  /-- CMD, the last word written while idle (R31). -/
  cmd : Word
  /-- RESULT (R32). -/
  result : Word
  /-- PROGRESS[15:0] (R33). -/
  progress : BitVec 16
  /-- The sequencer and the command it runs (R37). -/
  seq : Seq
  /-- MODEL'S OWN (log 3): what the host, the scheduler and the platform do next, the first entry first. It carries
  the draw LAT (00_scope.md R9). -/
  schedule : List Event
  /-- MODEL'S OWN (log 5): the data of the latest host read, zero-extended; `none` before the first. -/
  hostRead : Option Word
deriving DecidableEq, Repr

/-- Why a step stops. No command of the engine and no access to its block ends in one. -/
inductive Fault where
  /-- The schedule asks for a bus access outside the block `BASE .. BASE + 0x1FFF` (20_memory.md R61): it is no
  access to this hardware. Raised by the host-access events; safe (log 10). -/
  | outsideBlock
deriving DecidableEq, Repr

/-- Why an instruction has no meaning in the model. -/
inductive Refusal where
  /-- The instruction has no meaning yet. Raised by a refused arm of `exec` only, and no arm is refused; safe. -/
  | notModelled (mnemonic : String)
deriving DecidableEq, Repr

/-- The three outcomes of a step of this machine. -/
abbrev Result := Host.Outcome State Fault Refusal

/-- The state after reset of an engine with this WMAX (10_state.md R39): every operand register unallocated, every
control register 0, the sequencer idle. The model's own fields are empty. -/
def State.resetFor (wmax : Byte) : State where
  wmax := wmax
  regs := Vector.replicate 16 ⟨0#8, 0⟩
  ctrl := ⟨false, false, false⟩
  status := ⟨false, false, false, false, 0#8⟩
  cmd := 0#32
  result := 0#32
  progress := 0#16
  seq := .idle
  schedule := []
  hostRead := none

/-- The machine right after reset (70_reset_and_hazards.md R321). -/
def State.reset : State := State.resetFor Config.wmax

end Sys2Proof.Machine
end

