-- ==== Sys2Proof/Machine/Flags.lean ====
section
/-! DEFINITION. The control and status registers as the 32-bit words the host sees (10_state.md R27 to R34), the
write-1-to-clear rule of STATUS (R30), and the IRQ level (60_exceptions.md R291). The engine has no arithmetic flag
(10_state.md R35). -/

namespace Sys2Proof.Machine

open Sys2Proof

/-- STATUS.BUSY: the sequencer is in EXEC (10_state.md R29, 50_command_cycle.md R251). -/
def State.busy (s : State) : Bool :=
  match s.seq with
  | .idle => false
  | .exec _ => true

/-- A one-bit field. -/
def bit (b : Bool) : BitVec 1 := BitVec.ofBool b

/-- CFG: `{8'h00, REV = 1, NREG = 16, WMAX}` (10_state.md R27). -/
def cfgWord (s : State) : Word := 0x00#8 ++ 0x01#8 ++ 0x10#8 ++ s.wmax

/-- CTRL: PROGIE, ERRIE and DONEIE at bits 2, 1, 0 (10_state.md R28). -/
def ctrlWord (s : State) : Word := 0#29 ++ bit s.ctrl.progie ++ bit s.ctrl.errie ++ bit s.ctrl.donie

/-- STATUS: ERRCODE at [15:8], then ACCERR, PROG, ERR, DONE, BUSY at bits 4 to 0 (10_state.md R29). -/
def statusWord (s : State) : Word :=
  0#16 ++ s.status.errcode ++ 0#3 ++ bit s.status.accerr ++ bit s.status.prog ++ bit s.status.err ++
    bit s.status.done ++ bit s.busy

/-- PROGRESS: the latest event at [15:0] (10_state.md R33). -/
def progressWord (s : State) : Word := 0#16 ++ s.progress

/-- RWIDTH[i]: the width tag at [7:0] (10_state.md R34). -/
def rwidthWord (s : State) (i : Reg) : Word := 0#24 ++ (s.regs[i]).width

/-- A write of `v` to CTRL: bits [31:3] are ignored (10_state.md R28). -/
def State.setCtrl (s : State) (v : Word) : State :=
  { s with ctrl := ⟨v.getLsbD 0, v.getLsbD 1, v.getLsbD 2⟩ }

/-- STATUS after a write of `v` to it: a 1 clears its flag, and ERRCODE goes with ERR (10_state.md R30). -/
def clearStatus (st : Status) (v : Word) : Status where
  done := st.done && !v.getLsbD 1
  err := st.err && !v.getLsbD 2
  prog := st.prog && !v.getLsbD 3
  accerr := st.accerr && !v.getLsbD 4
  errcode := if v.getLsbD 2 then 0#8 else st.errcode

/-- The host acknowledges events: a write of `v` to STATUS (10_state.md R30, 60_exceptions.md R295). It is all the
return from an error or an event that the engine has. -/
def State.acknowledge (s : State) (v : Word) : State :=
  { s with status := clearStatus s.status v }

/-- The IRQ level (60_exceptions.md R291). -/
def State.irq (s : State) : Bool :=
  (s.status.done && s.ctrl.donie) || ((s.status.err || s.status.accerr) && s.ctrl.errie) ||
    (s.status.prog && s.ctrl.progie)

end Sys2Proof.Machine
end

