-- ==== Sys2Proof/Machine/Operands.lean ====
section
/-! DEFINITION. FixedInt values and the arithmetic on them: bytes and digits (00_scope.md R12, R13), the digit
comparison and the digit count (41_compare.md R161, R162), shift, add, subtract and multiply (42_arith.md R181 to
R184), division (43_divide.md R201), mulmod and powmod (44_modexp.md R221, R223). Each digit loop is the spec's own
pseudocode; that its value is the closed form the spec derives is stated for the provers. -/

namespace Sys2Proof.Machine

open Sys2Proof

/-! ### Bytes, digits and values -/

/-- `M(w) = 256^w` (00_scope.md R13). -/
def modulus (w : Nat) : Nat := 256 ^ w

/-- Byte `k` of a number, `(v >> 8k) & 0xFF` (00_scope.md R14). -/
def byteOf (v k : Nat) : Nat := v / 256 ^ k % 256

/-- The number with byte `k` replaced by `d`. -/
def setByte (v k d : Nat) : Nat :=
  v % 256 ^ k + d % 256 * 256 ^ k + v / 256 ^ (k + 1) * 256 ^ (k + 1)

/-- Base-16 digit `j` of a number (00_scope.md R12). -/
def digit (v j : Nat) : Nat := v / 16 ^ j % 16

/-- `val(Ri)`: the value of bytes `0 .. width-1` (00_scope.md R12, 10_state.md R22). -/
def FixedInt.val (f : FixedInt) : Nat := f.bytes % modulus f.width.toNat

/-- The register holds no FixedInt (10_state.md R22). -/
def FixedInt.unallocated (f : FixedInt) : Bool := decide (f.width = 0#8)

/-- What `R[i] <- (w, v)` stores (00_scope.md R14): the `w` low bytes of `v`, and 0 in every other byte. -/
def fixedOf (w : Byte) (v : Nat) : FixedInt := ⟨w, v % modulus w.toNat⟩

/-! ### Comparison and digit count -/

/-- The scan of `cmp_w` from digit `n - 1` down (41_compare.md R161). -/
def cmpScan (a b : Nat) : Nat → Ordering
  | 0 => .eq
  | n + 1 =>
    if digit a n > digit b n then .gt
    else if digit a n < digit b n then .lt
    else cmpScan a b n

/-- `cmp_w(a, b)`: the most significant unequal digit decides (41_compare.md R161). -/
def cmpDigits (w a b : Nat) : Ordering := cmpScan a b (2 * w)

/-- The scan of `sdc_w` from digit `n - 1` down (41_compare.md R162). -/
def sdcScan (v : Nat) : Nat → Nat
  | 0 => 0
  | n + 1 => if digit v n ≠ 0 then n + 1 else sdcScan v n

/-- `sdc_w(v)`, the significant digit count (41_compare.md R162). -/
def sdcDigits (w v : Nat) : Nat := sdcScan v (2 * w)

/-! ### Shift, addition, subtraction, multiplication -/

/-- shiftDigitsLeft: `(v * 16^k) mod M(w)` (42_arith.md R181). -/
def shlDigits (w v k : Nat) : Nat := v * 16 ^ k % modulus w

/-- The ripple-carry loop of add over `n` digits from digit `j` with carry `c` (42_arith.md R182). The last carry is
discarded. -/
def addScan (a b : Nat) : (n j c : Nat) → Nat
  | 0, _, _ => 0
  | n + 1, j, c =>
    let s := digit a j + digit b j + c
    s % 16 * 16 ^ j + addScan a b n (j + 1) (s / 16)

/-- add at width `w` (42_arith.md R182). -/
def addDigits (w a b : Nat) : Nat := addScan a b (2 * w) 0 0

/-- The ripple-borrow loop of sub over `n` digits from digit `j` with borrow `br` (42_arith.md R183). The last borrow
is discarded. -/
def subScan (a b : Nat) : (n j br : Nat) → Nat
  | 0, _, _ => 0
  | n + 1, j, br =>
    if digit a j < digit b j + br then
      (digit a j + 16 - (digit b j + br)) * 16 ^ j + subScan a b n (j + 1) 1
    else
      (digit a j - (digit b j + br)) * 16 ^ j + subScan a b n (j + 1) 0

/-- sub at width `w` (42_arith.md R183). -/
def subDigits (w a b : Nat) : Nat := subScan a b (2 * w) 0 0

/-- The loop of `mulw` (42_arith.md R184): the accumulator at the end, and the progress events in order. The first
argument of the recursion bounds the number of iterations (log 18). -/
def mulLoop (w a : Nat) : (fuel counter acc : Nat) → Nat × List Nat
  | 0, _, acc => (acc, [])
  | fuel + 1, counter, acc =>
    if counter = 0 then (acc, [])
    else
      let k := sdcDigits w counter
      let r := mulLoop w a fuel (counter - 16 ^ (k - 1)) ((acc + shlDigits w a (k - 1)) % modulus w)
      (r.1, k :: r.2)

/-- `mulw(a, b, w)` (42_arith.md R184). It runs once per unit of each digit of `b`, so at most `15 * 2w` times. -/
def mulw (w a b : Nat) : Nat × List Nat := mulLoop w a (30 * w) b 0

/-! ### Division, modular multiplication and exponentiation -/

/-- `divrem(a, d)` for `d != 0` (43_divide.md R201). The internal schedule is free and unobservable (R205, log 15). -/
def divrem (a d : Nat) : Nat × Nat := (a / d, a % d)

/-- `mulmod(a, x, n, w)` with its progress events (44_modexp.md R221): the double-width path where the digit counts
add up to more than `2w`. -/
def mulmodw (w a x n : Nat) : Nat × List Nat :=
  if sdcDigits w a + sdcDigits w x > 2 * w then
    let p := mulw (2 * w) a x
    ((divrem p.1 n).2 % modulus w, p.2)
  else
    let p := mulw w a x
    ((divrem p.1 n).2, p.2)

/-- The loop of `powmod` (44_modexp.md R223): the result at the end, and the progress events in order. The first
argument of the recursion bounds the number of iterations (log 18). -/
def powLoop (w m : Nat) : (fuel base ex result : Nat) → Nat × List Nat
  | 0, _, _, result => (result, [])
  | fuel + 1, base, ex, result =>
    if ex = 0 then (result, [])
    else if ex % 2 = 0 then
      let p := mulmodw w base base m
      let r := powLoop w m fuel p.1 (ex / 2) result
      (r.1, p.2 ++ r.2)
    else
      let p := mulmodw w result base m
      let r := powLoop w m fuel base (ex - 1) p.1
      (r.1, p.2 ++ r.2)

/-- `powmod(b, e, m, w)` (44_modexp.md R223). An exponent of `8w` bits takes fewer than `16w` passes. -/
def powmodw (w b e m : Nat) : Nat × List Nat := powLoop w m (16 * w) b e 1

end Sys2Proof.Machine
end

