-- ==== Sys2Proof/Machine/Ops.lean ====
section
/-! DEFINITION. The named operations over registers, the issue checks (60_exceptions.md R284), the command error and
the access error, and the command cycle: issue, progress event, commit (50_command_cycle.md), and hardware reset
(70_reset_and_hazards.md R321). -/

namespace Sys2Proof.Machine

open Sys2Proof

/-! ### Operand registers -/

/-- `R[i]` (00_scope.md R14). No register is hard-wired (10_state.md R24). -/
def State.reg (s : State) (r : Reg) : FixedInt := s.regs[r]

/-- `R[i] <- (w, v)` on a register file (00_scope.md R14): the bytes at and beyond `w` become 0. -/
def writeReg (regs : Vector FixedInt 16) (r : Reg) (f : FixedInt) : Vector FixedInt 16 :=
  regs.set r.val (fixedOf f.width f.bytes) r.isLt

/-- Every destination of a commit, in order (50_command_cycle.md R260). -/
def writeRegs (regs : Vector FixedInt 16) : List (Reg × FixedInt) → Vector FixedInt 16
  | [] => regs
  | (r, f) :: rest => writeRegs (writeReg regs r f) rest

/-! ### Issue checks (60_exceptions.md R284) -/

/-- BAD_WIDTH: the width immediate is 0 or above WMAX (30_encoding.md R103). -/
def checkWidth (s : State) (k : Byte) : Except CmdError Unit :=
  if k = 0#8 ∨ s.wmax < k then .error .badWidth else .ok ()

/-- A register the command reads, as it is latched; UNALLOCATED if its width is 0 (60_exceptions.md R285). -/
def readOperand (s : State) (r : Reg) : Except CmdError FixedInt :=
  if (s.reg r).unallocated then .error .unallocated else .ok (s.reg r)

/-- WIDTH_MISMATCH of two operands (60_exceptions.md R286). -/
def checkSameWidth (x y : FixedInt) : Except CmdError Unit :=
  if x.width = y.width then .ok () else .error .widthMismatch

/-- OPERAND_CONFLICT: two results for one register (60_exceptions.md R288). -/
def checkDistinct (a b : Reg) : Except CmdError Unit :=
  if a = b then .error .operandConflict else .ok ()

/-- DIV_ZERO: the latched divisor or modulus is 0 (60_exceptions.md R287). -/
def checkDivisor (d : FixedInt) : Except CmdError Unit :=
  if d.val = 0 then .error .divZero else .ok ()

/-! ### What a command latches (50_command_cycle.md R257) -/

/-- A command that writes the value `v` at width `w` to register `a`, emits no event and leaves RESULT alone. -/
def latchWrite (i : Instr) (operands : List FixedInt) (a : Reg) (w : Byte) (v : Nat) : Latched :=
  ⟨i, operands, [(a, ⟨w, v⟩)], none, []⟩

/-- A command that writes only RESULT (10_state.md R32). -/
def latchResult (i : Instr) (operands : List FixedInt) (v : Word) : Latched :=
  ⟨i, operands, [], some v, []⟩

/-- A boolean in RESULT: 0 or 1 (10_state.md R32). -/
def boolWord (b : Bool) : Word := if b then 1#32 else 0#32

/-! ### The two kinds of error (60_exceptions.md R281) -/

/-- A command error: DONE and ERR with the code; BUSY, the registers, RESULT and PROGRESS stay as they are
(50_command_cycle.md R254). This is all the "exception entry" the engine has: it vectors nowhere and saves nothing
(60_exceptions.md R281, R294). -/
def State.raiseCmdError (s : State) (e : CmdError) : State :=
  { s with status := { s.status with done := true, err := true, errcode := errorCode e } }

/-- An access error: a refused host access sets ACCERR and has no other effect (20_memory.md R74). -/
def State.refuseAccess (s : State) : State :=
  { s with status := { s.status with accerr := true } }

/-! ### The command cycle (50_command_cycle.md) -/

/-- The start of every issue of word `x` (R253). ACCERR, CTRL, RESULT and the registers are not changed. -/
def State.beginIssue (s : State) (x : Word) : State :=
  { s with
    cmd := x
    status := { s.status with done := false, err := false, errcode := 0#8, prog := false }
    progress := 0#16 }

/-- The end of an issue that passed: BUSY, and the command latched (R255, R257). -/
def State.startExec (s : State) (l : Latched) : State :=
  { s with seq := .exec l }

/-- The issue of word `x` with the outcome `c` of its decoding and checks (R252 to R255). While BUSY it is refused
(R252, 20_memory.md R74 (a)). -/
def State.issueWord (s : State) (x : Word) (c : Except CmdError Latched) : State :=
  if s.busy then s.refuseAccess
  else
    match c with
    | .error e => (s.beginIssue x).raiseCmdError e
    | .ok l => (s.beginIssue x).startExec l

/-- The issue of a decoded command, whose word is its encoding (log 9). It always gives a next state. -/
def issue (i : Instr) (s : State) (c : Except CmdError Latched) : Result :=
  .next (s.issueWord (encode i) c)

/-- The issue of a word that does not decode (30_encoding.md R111). -/
def rejectWord (x : Word) (e : CmdError) (s : State) : Result :=
  .next (s.issueWord x (.error e))

/-- A progress event (42_arith.md R185), which leaves `rest` still to be emitted. -/
def State.emitProgress (s : State) (l : Latched) (k : Nat) (rest : List Nat) : State :=
  { s with
    progress := BitVec.ofNat 16 k
    status := { s.status with prog := true }
    seq := .exec { l with pending := rest } }

/-- The commit, one atomic step (50_command_cycle.md R260). -/
def State.commit (s : State) (l : Latched) : State :=
  { s with
    regs := writeRegs s.regs l.writes
    result := l.result.getD s.result
    status := { s.status with done := true }
    seq := .idle }

/-- An engine step, enabled only in EXEC: the next progress event, or else the commit (50_command_cycle.md R263). -/
def State.engineStep (s : State) : State :=
  match s.seq with
  | .idle => s
  | .exec l =>
    match l.pending with
    | k :: rest => s.emitProgress l k rest
    | [] => s.commit l

/-- A hardware reset (70_reset_and_hazards.md R321). WMAX is a constant of the engine (10_state.md R27); what the
other agents do next and have read is not the engine's (log 21). -/
def State.hardReset (s : State) : State :=
  { State.resetFor s.wmax with schedule := s.schedule, hostRead := s.hostRead }

end Sys2Proof.Machine
end

