-- ==== Sys2Proof/Machine/Bus.lean ====
section
/-! DEFINITION. The host's side of the register block: the address map (20_memory.md R66), the control registers
(10_state.md R27 to R34), the data window (20_memory.md R68 to R71), refused accesses (R74), and the block's place on
the bus (00_scope.md R8, R14). -/

namespace Sys2Proof.Machine

open Sys2Proof

/-! ### The map -/

/-- The offset of CMD (20_memory.md R66). -/
def cmdOffset : Nat := 0x00C

/-- The first offset of the data window (20_memory.md R66). -/
def windowOffset : Nat := 0x1000

/-- An access that starts in the control region (20_memory.md R72, log 11). -/
def inControl (off : Nat) : Bool := decide (off < windowOffset)

/-- The operand register whose slot an offset of the window is in (20_memory.md R68). -/
def windowReg (off : Nat) : Reg := Fin.ofNat 16 (off / 0x100)

/-- The byte index of an offset of the window within its register's slot (20_memory.md R68). -/
def windowByte (off : Nat) : Nat := off % 0x100

/-- The offset in the block of a bus address, if it is in the block (00_scope.md R8, R14; 20_memory.md R61). -/
def blockOffset (addr : Nat) : Option Nat :=
  if Config.base ≤ addr ∧ addr < Config.base + Config.blockSize then some (addr - Config.base) else none

/-! ### Which accesses are refused (20_memory.md R72 to R74) -/

/-- The width and alignment an access must have: 32 bits aligned in the control region (R72); 8, 16 or 32 bits
naturally aligned in the window (R73). -/
def wellFormedAccess (off n : Nat) : Bool :=
  if inControl off then n == 4 && off % 4 == 0
  else (n == 1 || n == 2 || n == 4) && off % n == 0

/-- A read is refused: R74 (b), (c), (d). -/
def readRefused (s : State) (off n : Nat) : Bool :=
  !wellFormedAccess off n || (!inControl off && s.busy)

/-- A write is refused: R74 (a) to (d). -/
def writeRefused (s : State) (off n : Nat) : Bool :=
  !wellFormedAccess off n || (s.busy && (!inControl off || off == cmdOffset))

/-! ### Control registers -/

/-- A read of the word at `off` of the control region; a reserved word reads 0 (20_memory.md R66, R67). -/
def readControl (s : State) (off : Nat) : Word :=
  if off = 0x000 then cfgWord s
  else if off = 0x004 then ctrlWord s
  else if off = 0x008 then statusWord s
  else if off = cmdOffset then s.cmd
  else if off = 0x010 then s.result
  else if off = 0x014 then progressWord s
  else if 0x040 ≤ off ∧ off < 0x080 then rwidthWord s (Fin.ofNat 16 ((off - 0x040) / 4))
  else 0#32

/-- A write of `v` to the word at `off` of the control region other than CMD: only CTRL and STATUS take it
(20_memory.md R67, R75). -/
def writeControl (s : State) (off : Nat) (v : Word) : State :=
  if off = 0x004 then s.setCtrl v
  else if off = 0x008 then s.acknowledge v
  else s

/-! ### The data window -/

/-- A window byte read: 0 at and beyond the width (20_memory.md R69). -/
def readByte (f : FixedInt) (j : Nat) : Nat :=
  if j < f.width.toNat then byteOf f.bytes j else 0

/-- A window byte write: dropped at and beyond the width (20_memory.md R70). -/
def writeByte (f : FixedInt) (j d : Nat) : FixedInt :=
  if j < f.width.toNat then { f with bytes := setByte f.bytes j d } else f

/-- An `n`-byte window read in little-endian lanes: byte `j + t` in data bits `8t+7..8t` (20_memory.md R71). -/
def readLanes (f : FixedInt) (j : Nat) : (n : Nat) → Nat
  | 0 => 0
  | n + 1 => readLanes f j n + readByte f (j + n) * 256 ^ n

/-- An `n`-byte window write of `v` in little-endian lanes (20_memory.md R71). -/
def writeLanes (f : FixedInt) (j v : Nat) : (n : Nat) → FixedInt
  | 0 => f
  | n + 1 => writeByte (writeLanes f j v n) (j + n) (byteOf v n)

/-- The data of a performed window read. -/
def readWindow (s : State) (off n : Nat) : Word :=
  BitVec.ofNat 32 (readLanes (s.reg (windowReg off)) (windowByte off) n)

/-- The state after a performed window write. It stores the register's bytes and keeps its width tag (10_state.md
R25 (a)). -/
def writeWindow (s : State) (off n : Nat) (v : Word) : State :=
  { s with
    regs := s.regs.set (windowReg off).val
      (writeLanes (s.reg (windowReg off)) (windowByte off) v.toNat n) (windowReg off).isLt }

/-! ### Host accesses -/

/-- The data of a read that is performed (20_memory.md R66). -/
def readData (s : State) (off n : Nat) : Word :=
  if inControl off then readControl s off else readWindow s off n

/-- `MMIORead(off, n)` within the block: a refused read returns 0 and sets ACCERR; a performed one has no side effect
(20_memory.md R74, R75). -/
def State.mmioRead (s : State) (off n : Nat) : State :=
  if readRefused s off n then { s.refuseAccess with hostRead := some 0#32 }
  else { s with hostRead := some (readData s off n) }

/-- A performed write of `v` at `off` that issues no command. -/
def State.store (s : State) (off n : Nat) (v : Word) : State :=
  if inControl off then writeControl s off v else writeWindow s off n v

/-- `MMIOWrite(off, n, v)` within the block. `run` is the issue of a command word, which a write to CMD while idle is
(20_memory.md R74, R75; 50_command_cycle.md R252). -/
def mmioWrite (run : Word → State → Result) (s : State) (off n : Nat) (v : Word) : Result :=
  if writeRefused s off n then .next s.refuseAccess
  else if off = cmdOffset then run v s
  else .next (s.store off n v)

/-- A host read at an offset; outside the block it is no access to the engine (20_memory.md R61, log 10). -/
def hostReadAt (s : State) (off n : Nat) : Result :=
  if off < Config.blockSize then .next (s.mmioRead off n) else .fault .outsideBlock

/-- A host write at an offset. -/
def hostWriteAt (run : Word → State → Result) (s : State) (off n : Nat) (v : Word) : Result :=
  if off < Config.blockSize then mmioWrite run s off n v else .fault .outsideBlock

/-- One event of the schedule (50_command_cycle.md R263). -/
def perform (run : Word → State → Result) (s : State) : Event → Result
  | .mmioRead off n => hostReadAt s off n
  | .mmioWrite off n v => hostWriteAt run s off n v
  | .memRead addr n =>
    match blockOffset addr with
    | some off => hostReadAt s off n
    | none => .fault .outsideBlock
  | .memWrite addr n v =>
    match blockOffset addr with
    | some off => hostWriteAt run s off n v
    | none => .fault .outsideBlock
  | .engine => .next s.engineStep
  | .reset => .next s.hardReset

end Sys2Proof.Machine
end

