-- ==== Sys2Proof/Machine/Arith.lean ====
section
/-! DEFINITION. The digit-shift and arithmetic commands SHL, ADD, SUB, MUL (42_arith.md). Each is in place at A's width;
every result is taken mod M(w) and no flag is set (00_scope.md R13, 10_state.md R35). -/

namespace Sys2Proof.Machine

open Sys2Proof

/-- `SHL rA, K`: A is shifted left by K digits (42_arith.md R181). Every K is legal. -/
def execShl (a : Reg) (k : Byte) (s : State) : Result :=
  issue (.shl a k) s do
    let x ← readOperand s a
    return latchWrite (.shl a k) [x] a x.width (shlDigits x.width.toNat x.val k.toNat)

/-- `ADD rA, rB`: ripple-carry sum (42_arith.md R182). -/
def execAdd (a b : Reg) (s : State) : Result :=
  issue (.add a b) s do
    let x ← readOperand s a
    let y ← readOperand s b
    checkSameWidth x y
    return latchWrite (.add a b) [x, y] a x.width (addDigits x.width.toNat x.val y.val)

/-- `SUB rA, rB`: ripple-borrow difference, which wraps without an error when `a < b` (42_arith.md R183). -/
def execSub (a b : Reg) (s : State) : Result :=
  issue (.sub a b) s do
    let x ← readOperand s a
    let y ← readOperand s b
    checkSameWidth x y
    return latchWrite (.sub a b) [x, y] a x.width (subDigits x.width.toNat x.val y.val)

/-- `MUL rA, rB`: the product, with one progress event per iteration of `mulw` (42_arith.md R184 to R186). -/
def execMul (a b : Reg) (s : State) : Result :=
  issue (.mul a b) s do
    let x ← readOperand s a
    let y ← readOperand s b
    checkSameWidth x y
    let p := mulw x.width.toNat x.val y.val
    return { latchWrite (.mul a b) [x, y] a x.width p.1 with pending := p.2 }

end Sys2Proof.Machine
end

