-- ==== Sys2Proof/Machine/Compare.lean ====
section
/-! DEFINITION. The comparison and digit-count commands EQ, NZ, GT, GE, SDC, EVEN (41_compare.md). Each writes RESULT and
no operand register, and emits no progress event. -/

namespace Sys2Proof.Machine

open Sys2Proof

/-- `EQ rA, rB`: RESULT is 1 if the values are equal, else 0 (41_compare.md R163). -/
def execEq (a b : Reg) (s : State) : Result :=
  issue (.eq a b) s do
    let x ← readOperand s a
    let y ← readOperand s b
    checkSameWidth x y
    return latchResult (.eq a b) [x, y] (boolWord (x.val == y.val))

/-- `NZ rA`: RESULT is 1 if the value is not 0 (41_compare.md R164). -/
def execNz (a : Reg) (s : State) : Result :=
  issue (.nz a) s do
    let x ← readOperand s a
    return latchResult (.nz a) [x] (boolWord (x.val != 0))

/-- `GT rA, rB`: RESULT is 1 if the digit comparison gives GREATER (41_compare.md R165). -/
def execGt (a b : Reg) (s : State) : Result :=
  issue (.gt a b) s do
    let x ← readOperand s a
    let y ← readOperand s b
    checkSameWidth x y
    return latchResult (.gt a b) [x, y] (boolWord (cmpDigits x.width.toNat x.val y.val == .gt))

/-- `GE rA, rB`: RESULT is 1 unless the digit comparison gives LESS (41_compare.md R166). -/
def execGe (a b : Reg) (s : State) : Result :=
  issue (.ge a b) s do
    let x ← readOperand s a
    let y ← readOperand s b
    checkSameWidth x y
    return latchResult (.ge a b) [x, y] (boolWord (cmpDigits x.width.toNat x.val y.val != .lt))

/-- `SDC rA`: RESULT is the significant digit count, zero-extended (41_compare.md R167). -/
def execSdc (a : Reg) (s : State) : Result :=
  issue (.sdc a) s do
    let x ← readOperand s a
    return latchResult (.sdc a) [x] (BitVec.ofNat 32 (sdcDigits x.width.toNat x.val))

/-- `EVEN rA`: RESULT is 1 if bit 0 of byte 0 is 0 (41_compare.md R168). -/
def execEven (a : Reg) (s : State) : Result :=
  issue (.even a) s do
    let x ← readOperand s a
    return latchResult (.even a) [x] (boolWord (byteOf x.val 0 % 2 == 0))

end Sys2Proof.Machine
end

