-- ==== Sys2Proof/Machine/Construct.lean ====
section
/-! DEFINITION. The construction and assignment commands CREATE, SMALL, WIDEN, ASSIGN, CLEAR (40_construct.md). Each
meaning makes its checks in the order of 60_exceptions.md R284 and latches what its commit writes. -/

namespace Sys2Proof.Machine

open Sys2Proof

/-- `CREATE rA, K`: A becomes a zero-filled FixedInt of width K (40_construct.md R141). A is not read. -/
def execCreate (a : Reg) (k : Byte) (s : State) : Result :=
  issue (.create a k) s do
    checkWidth s k
    return latchWrite (.create a k) [] a k 0

/-- `SMALL rA, V, K`: A becomes the FixedInt V of width K (40_construct.md R142). A is not read. -/
def execSmall (a : Reg) (v k : Byte) (s : State) : Result :=
  issue (.small a v k) s do
    checkWidth s k
    return latchWrite (.small a v k) [] a k v.toNat

/-- `WIDEN rA, rB, K`: A becomes B's value at width K, zero-extended or truncated (40_construct.md R143). BAD_WIDTH
comes before UNALLOCATED; A is not read. -/
def execWiden (a b : Reg) (k : Byte) (s : State) : Result :=
  issue (.widen a b k) s do
    checkWidth s k
    let y ← readOperand s b
    return latchWrite (.widen a b k) [y] a k (y.val % modulus k.toNat)

/-- `ASSIGN rA, rB`: A gets B's value, truncated or zero-extended to A's own width (40_construct.md R144). -/
def execAssign (a b : Reg) (s : State) : Result :=
  issue (.assign a b) s do
    let x ← readOperand s a
    let y ← readOperand s b
    return latchWrite (.assign a b) [x, y] a x.width (y.val % modulus x.width.toNat)

/-- `CLEAR rA`: A becomes 0 at its own width (40_construct.md R145). -/
def execClear (a : Reg) (s : State) : Result :=
  issue (.clear a) s do
    let x ← readOperand s a
    return latchWrite (.clear a) [x] a x.width 0

end Sys2Proof.Machine
end

