-- ==== Sys2Proof/Machine/Divide.lean ====
section
/-! DEFINITION. The division commands DIVREM, DIV, MOD (43_divide.md). They emit no progress event (R205). -/

namespace Sys2Proof.Machine

open Sys2Proof

/-- `DIVREM rA, rB, rC, rD`: A gets the quotient and B the remainder of C by D, at C's width (43_divide.md R202). A
and B are not read, and may be C or D. -/
def execDivrem (a b c d : Reg) (s : State) : Result :=
  issue (.divrem a b c d) s do
    let x ← readOperand s c
    let y ← readOperand s d
    checkSameWidth x y
    checkDistinct a b
    checkDivisor y
    let p := divrem x.val y.val
    return { instr := .divrem a b c d, operands := [x, y], writes := [(a, ⟨x.width, p.1⟩), (b, ⟨x.width, p.2⟩)],
             result := none, pending := [] }

/-- `DIV rA, rB`: A gets the quotient (43_divide.md R203). -/
def execDiv (a b : Reg) (s : State) : Result :=
  issue (.div a b) s do
    let x ← readOperand s a
    let y ← readOperand s b
    checkSameWidth x y
    checkDivisor y
    return latchWrite (.div a b) [x, y] a x.width (divrem x.val y.val).1

/-- `MOD rA, rB`: A gets the remainder (43_divide.md R204). -/
def execMod (a b : Reg) (s : State) : Result :=
  issue (.mod a b) s do
    let x ← readOperand s a
    let y ← readOperand s b
    checkSameWidth x y
    checkDivisor y
    return latchWrite (.mod a b) [x, y] a x.width (divrem x.val y.val).2

end Sys2Proof.Machine
end

