-- ==== Sys2Proof/Machine/Modular.lean ====
section
/-! DEFINITION. The modular commands MULMOD, POWMOD (44_modexp.md). Both emit the progress events of their inner
multiplications (42_arith.md R185, 44_modexp.md R225). -/

namespace Sys2Proof.Machine

open Sys2Proof

/-- `MULMOD rA, rB, rC`: A gets `(A * B) mod C` with no bit lost (44_modexp.md R221, R222). -/
def execMulmod (a b c : Reg) (s : State) : Result :=
  issue (.mulmod a b c) s do
    let x ← readOperand s a
    let y ← readOperand s b
    let n ← readOperand s c
    checkSameWidth x y
    checkSameWidth x n
    checkDivisor n
    let p := mulmodw x.width.toNat x.val y.val n.val
    return { latchWrite (.mulmod a b c) [x, y, n] a x.width p.1 with pending := p.2 }

/-- `POWMOD rA, rB, rC, rD`: A gets `B^C mod D`, and 1 for a zero exponent (44_modexp.md R223, R224). A is not read;
a zero modulus is DIV_ZERO for every exponent. -/
def execPowmod (a b c d : Reg) (s : State) : Result :=
  issue (.powmod a b c d) s do
    let x ← readOperand s b
    let e ← readOperand s c
    let m ← readOperand s d
    checkSameWidth x e
    checkSameWidth x m
    checkDivisor m
    let p := powmodw x.width.toNat x.val e.val m.val
    return { latchWrite (.powmod a b c d) [x, e, m] a x.width p.1 with pending := p.2 }

end Sys2Proof.Machine
end

