-- ==== Sys2Proof/Machine/Dispatch.lean ====
section
/-! DEFINITION. exec: the issue of a decoded command, one arm per command of the opcode map (30_encoding.md R108). -/

namespace Sys2Proof.Machine

open Sys2Proof

def exec (i : Instr) (s : State) : Host.Outcome State Fault Refusal :=
  match i with
  | .create a k => Sys2Proof.Machine.execCreate a k s
  | .small a v k => Sys2Proof.Machine.execSmall a v k s
  | .widen a b k => Sys2Proof.Machine.execWiden a b k s
  | .assign a b => Sys2Proof.Machine.execAssign a b s
  | .clear a => Sys2Proof.Machine.execClear a s
  | .eq a b => Sys2Proof.Machine.execEq a b s
  | .nz a => Sys2Proof.Machine.execNz a s
  | .gt a b => Sys2Proof.Machine.execGt a b s
  | .ge a b => Sys2Proof.Machine.execGe a b s
  | .sdc a => Sys2Proof.Machine.execSdc a s
  | .even a => Sys2Proof.Machine.execEven a s
  | .shl a k => Sys2Proof.Machine.execShl a k s
  | .add a b => Sys2Proof.Machine.execAdd a b s
  | .sub a b => Sys2Proof.Machine.execSub a b s
  | .mul a b => Sys2Proof.Machine.execMul a b s
  | .divrem a b c d => Sys2Proof.Machine.execDivrem a b c d s
  | .div a b => Sys2Proof.Machine.execDiv a b s
  | .mod a b => Sys2Proof.Machine.execMod a b s
  | .mulmod a b c => Sys2Proof.Machine.execMulmod a b c s
  | .powmod a b c d => Sys2Proof.Machine.execPowmod a b c d s

end Sys2Proof.Machine
end

