-- ==== Sys2Proof/Machine/Issue.lean ====
section
/-! DEFINITION. The fetch of this machine: the word that a CMD write issues is decoded and run (50_command_cycle.md
R252). -/

namespace Sys2Proof.Machine

open Sys2Proof

/-- The issue of a command word: decoding, then the command's own checks and latching (30_encoding.md R111,
50_command_cycle.md R252). -/
def runWord (w : Word) (s : State) : Result :=
  match decode w with
  | .ok i => exec i s
  | .error e => rejectWord w e s

/-- The event that writes a command word to CMD (30_encoding.md R114, `cmd WORD`). -/
def cmdEvent (w : Word) : Event := .mmioWrite cmdOffset 4 w

/-- What a step does: the schedule's next event; with none left, an engine step if a command runs, and nothing in
IDLE (50_command_cycle.md R263, 10_state.md R26, log 3). -/
def stepOnce (s : State) : Result :=
  match s.schedule with
  | [] => .next s.engineStep
  | e :: rest => perform runWord { s with schedule := rest } e

end Sys2Proof.Machine
end

