-- ==== Sys2Proof/Machine/Step.lean ====
section
/-! DEFINITION. The step of the machine (50_command_cycle.md R263), and the place its next command comes from. -/

namespace Sys2Proof.Machine

open Sys2Proof

/-- One step of one agent. -/
def step (s : State) : Host.Outcome State Fault Refusal := stepOnce s

/-- The state whose very next step issues the command whose `nbits` low bits are `w`: the sequencer idle, and the
host's next access the CMD write of that word (50_command_cycle.md R252, log 4). -/
def State.withFetchWord (s : State) (nbits w : Nat) : State :=
  { s with seq := .idle, schedule := cmdEvent (BitVec.ofNat 32 (w % 2 ^ nbits)) :: s.schedule }

end Sys2Proof.Machine
end

