-- ==== Sys2Proof/Safety.lean ====
section
/-! DEFINITION. The terms in which claims about the machine are stated: runs of engine steps, the three states an
issue or a commit leads to written out field by field, the columns of the register-role table (30_encoding.md R110)
and the opcode map's masks (R108), closed forms of the progress events (42_arith.md R184, 44_modexp.md R225), and the
invariant of every reachable state. The machine itself uses none of these. -/

namespace Sys2Proof.Machine

open Sys2Proof

/-! ### Runs -/

/-- `n` engine steps with no other step between them. -/
def engineRun : Nat → State → State
  | 0, s => s
  | n + 1, s => engineRun n s.engineStep

/-- From `m`, engine steps emit exactly `events` in order while the engine stays in EXEC with its operand registers
and RESULT untouched, and one step more leads to `t` (50_command_cycle.md R262, R263). -/
def RunsTo (m : State) (events : List Nat) (t : State) : Prop :=
  (∀ k, k ≤ events.length →
    (engineRun k m).busy = true ∧ (engineRun k m).regs = m.regs ∧ (engineRun k m).result = m.result ∧
    (0 < k → (engineRun k m).progress = BitVec.ofNat 16 (events.getD (k - 1) 0) ∧ (engineRun k m).status.prog = true)) ∧
  engineRun (events.length + 1) m = t

/-- The state after a failed issue of word `w` (50_command_cycle.md R253, R254): CMD holds the word, DONE and ERR are
set with the code, PROG and PROGRESS are 0, and nothing else changes. -/
def failedIssue (s : State) (w : Word) (code : Byte) : State :=
  { s with cmd := w, progress := 0#16, status := ⟨true, true, false, s.status.accerr, code⟩ }

/-- The state after an issue of word `w` that passed (50_command_cycle.md R253, R255). -/
def startedIssue (s : State) (w : Word) (l : Latched) : State :=
  { s with cmd := w, progress := 0#16, status := ⟨false, false, false, s.status.accerr, 0#8⟩, seq := .exec l }

/-- The state after the commit of the command with word `w` that was issued in `s`, when no other agent moved in
between (50_command_cycle.md R253, R260; 42_arith.md R185): the register file and RESULT as given, DONE set, PROG set
if there was an event, PROGRESS the last event or 0. Everything else is as in `s`. -/
def completed (s : State) (w : Word) (regs : Vector FixedInt 16) (result : Word) (events : List Nat) : State :=
  { s with
    cmd := w
    regs := regs
    result := result
    progress := BitVec.ofNat 16 (events.getLastD 0)
    status := ⟨true, false, !events.isEmpty, s.status.accerr, 0#8⟩
    seq := .idle }

/-- The register file with `(w, v)` in register `r`. -/
def withReg (regs : Vector FixedInt 16) (r : Reg) (w : Byte) (v : Nat) : Vector FixedInt 16 :=
  regs.set r.val ⟨w, v⟩ r.isLt

/-! ### The register-role table (30_encoding.md R110) -/

/-- The "reads" column. -/
def readsOf : Instr → List Reg
  | .create _ _ => []
  | .small _ _ _ => []
  | .widen _ b _ => [b]
  | .assign a b => [a, b]
  | .clear a => [a]
  | .eq a b => [a, b]
  | .nz a => [a]
  | .gt a b => [a, b]
  | .ge a b => [a, b]
  | .sdc a => [a]
  | .even a => [a]
  | .shl a _ => [a]
  | .add a b => [a, b]
  | .sub a b => [a, b]
  | .mul a b => [a, b]
  | .divrem _ _ c d => [c, d]
  | .div a b => [a, b]
  | .mod a b => [a, b]
  | .mulmod a b c => [a, b, c]
  | .powmod _ b c d => [b, c, d]

/-- The "same width" column. -/
def sameWidthOf : Instr → List Reg
  | .eq a b => [a, b]
  | .gt a b => [a, b]
  | .ge a b => [a, b]
  | .add a b => [a, b]
  | .sub a b => [a, b]
  | .mul a b => [a, b]
  | .divrem _ _ c d => [c, d]
  | .div a b => [a, b]
  | .mod a b => [a, b]
  | .mulmod a b c => [a, b, c]
  | .powmod _ b c d => [b, c, d]
  | .create _ _ => []
  | .small _ _ _ => []
  | .widen _ _ _ => []
  | .assign _ _ => []
  | .clear _ => []
  | .nz _ => []
  | .sdc _ => []
  | .even _ => []
  | .shl _ _ => []

/-- The "nonzero" column. -/
def divisorOf : Instr → Option Reg
  | .divrem _ _ _ d => some d
  | .div _ b => some b
  | .mod _ b => some b
  | .mulmod _ _ c => some c
  | .powmod _ _ _ d => some d
  | .create _ _ => none
  | .small _ _ _ => none
  | .widen _ _ _ => none
  | .assign _ _ => none
  | .clear _ => none
  | .eq _ _ => none
  | .nz _ => none
  | .gt _ _ => none
  | .ge _ _ => none
  | .sdc _ => none
  | .even _ => none
  | .shl _ _ => none
  | .add _ _ => none
  | .sub _ _ => none
  | .mul _ _ => none

/-- The "writes" column: each destination with the width it gets. -/
def writesOf (s : State) : Instr → List (Reg × Byte)
  | .create a k => [(a, k)]
  | .small a _ k => [(a, k)]
  | .widen a _ k => [(a, k)]
  | .assign a _ => [(a, (s.reg a).width)]
  | .clear a => [(a, (s.reg a).width)]
  | .eq _ _ => []
  | .nz _ => []
  | .gt _ _ => []
  | .ge _ _ => []
  | .sdc _ => []
  | .even _ => []
  | .shl a _ => [(a, (s.reg a).width)]
  | .add a _ => [(a, (s.reg a).width)]
  | .sub a _ => [(a, (s.reg a).width)]
  | .mul a _ => [(a, (s.reg a).width)]
  | .divrem a b c _ => [(a, (s.reg c).width), (b, (s.reg c).width)]
  | .div a _ => [(a, (s.reg a).width)]
  | .mod a _ => [(a, (s.reg a).width)]
  | .mulmod a _ _ => [(a, (s.reg a).width)]
  | .powmod a b _ _ => [(a, (s.reg b).width)]

/-- The "RESULT" column: the command writes RESULT (10_state.md R32). -/
def writesResult : Instr → Bool
  | .eq _ _ => true
  | .nz _ => true
  | .gt _ _ => true
  | .ge _ _ => true
  | .sdc _ => true
  | .even _ => true
  | .create _ _ => false
  | .small _ _ _ => false
  | .widen _ _ _ => false
  | .assign _ _ => false
  | .clear _ => false
  | .shl _ _ => false
  | .add _ _ => false
  | .sub _ _ => false
  | .mul _ _ => false
  | .divrem _ _ _ _ => false
  | .div _ _ => false
  | .mod _ _ => false
  | .mulmod _ _ _ => false
  | .powmod _ _ _ _ => false

/-- The commands that set a width tag without reading it from the register they write (10_state.md R22). -/
def setsWidthTag : Instr → Bool
  | .create _ _ => true
  | .small _ _ _ => true
  | .widen _ _ _ => true
  | .divrem _ _ _ _ => true
  | .powmod _ _ _ _ => true
  | .assign _ _ => false
  | .clear _ => false
  | .eq _ _ => false
  | .nz _ => false
  | .gt _ _ => false
  | .ge _ _ => false
  | .sdc _ => false
  | .even _ => false
  | .shl _ _ => false
  | .add _ _ => false
  | .sub _ _ => false
  | .mul _ _ => false
  | .div _ _ => false
  | .mod _ _ => false
  | .mulmod _ _ _ => false

/-- A width immediate breaks 30_encoding.md R103. -/
def badWidthImmediate (s : State) : Instr → Prop
  | .create _ k => k.toNat = 0 ∨ s.wmax.toNat < k.toNat
  | .small _ _ k => k.toNat = 0 ∨ s.wmax.toNat < k.toNat
  | .widen _ _ k => k.toNat = 0 ∨ s.wmax.toNat < k.toNat
  | _ => False

/-- DIVREM with one register for both results (60_exceptions.md R288). -/
def conflictingDestinations : Instr → Prop
  | .divrem a b _ _ => a = b
  | _ => False

/-- Check number `n` of 60_exceptions.md R284 (3 to 7, which are also the error codes of R283) fails for command `i`
in state `s`, read off the columns of the register-role table. -/
def checkFails (s : State) (i : Instr) : Nat → Prop
  | 3 => badWidthImmediate s i
  | 4 => ∃ r ∈ readsOf i, (s.reg r).width = 0#8
  | 5 => ∃ r ∈ sameWidthOf i, ∃ q ∈ sameWidthOf i, (s.reg r).width ≠ (s.reg q).width
  | 6 => conflictingDestinations i
  | 7 => ∃ r, divisorOf i = some r ∧ (s.reg r).val = 0
  | _ => False

/-- The mask column of the opcode map, by OP; `none` where OP is illegal (30_encoding.md R108, R109). -/
def rowMask : Nat → Option Word
  | 0x01 => some 0x00FFF0FF#32
  | 0x02 => some 0x0000F0FF#32
  | 0x03 => some 0x00FF00FF#32
  | 0x04 => some 0xFFFF00FF#32
  | 0x05 => some 0xFFFFF0FF#32
  | 0x08 => some 0xFFFF00FF#32
  | 0x09 => some 0xFFFFF0FF#32
  | 0x0A => some 0xFFFF00FF#32
  | 0x0B => some 0xFFFF00FF#32
  | 0x0C => some 0xFFFFF0FF#32
  | 0x0D => some 0xFFFFF0FF#32
  | 0x10 => some 0x00FFF0FF#32
  | 0x11 => some 0xFFFF00FF#32
  | 0x12 => some 0xFFFF00FF#32
  | 0x13 => some 0xFFFF00FF#32
  | 0x14 => some 0xFF0000FF#32
  | 0x15 => some 0xFFFF00FF#32
  | 0x16 => some 0xFFFF00FF#32
  | 0x18 => some 0xFFF000FF#32
  | 0x19 => some 0xFF0000FF#32
  | _ => none

/-! ### Progress events in closed form -/

/-- The events of one multiplication by `x`: the value `j + 1` once per unit of digit `j`, from the most significant
digit down (42_arith.md R184). -/
def unitEvents (w x : Nat) : List Nat :=
  (List.range (2 * w)).reverse.flatMap fun j => List.replicate (digit x j) (j + 1)

/-- The multipliers that power_mod meets, in loop order (44_modexp.md R223, R225): at bit `i` of the exponent the
working base is `b^(2^i)` reduced (unreduced at bit 0); it is multiplied into the result if the bit is set, and squared
unless the bit is the last. -/
def powMultipliers (b e m : Nat) : List Nat :=
  (List.range e.size).flatMap fun i =>
    let x := if i = 0 then b else b ^ (2 ^ i) % m
    (if e.testBit i then [x] else []) ++ (if i + 1 < e.size then [x] else [])

/-- The progress events of a POWMOD (44_modexp.md R225). -/
def powEvents (w b e m : Nat) : List Nat := (powMultipliers b e m).flatMap (unitEvents w)

/-! ### Host accesses -/

/-- A write access that 20_memory.md R74 refuses: (a), (b), (c) or (d). -/
def RefusedWrite (s : State) (off n : Nat) : Prop :=
  (off = 0x00C ∧ s.busy = true) ∨ (0x1000 ≤ off ∧ s.busy = true) ∨
  (off < 0x1000 ∧ ¬(n = 4 ∧ off % 4 = 0)) ∨
  (0x1000 ≤ off ∧ ¬((n = 1 ∨ n = 2 ∨ n = 4) ∧ off % n = 0))

/-- A read access that 20_memory.md R74 refuses: (b), (c) or (d). -/
def RefusedRead (s : State) (off n : Nat) : Prop :=
  (0x1000 ≤ off ∧ s.busy = true) ∨
  (off < 0x1000 ∧ ¬(n = 4 ∧ off % 4 = 0)) ∨
  (0x1000 ≤ off ∧ ¬((n = 1 ∨ n = 2 ∨ n = 4) ∧ off % n = 0))

/-- The event is no bus access outside the register block (20_memory.md R61). -/
def InBlock : Event → Prop
  | .mmioRead off _ => off < 0x2000
  | .mmioWrite off _ _ => off < 0x2000
  | .memRead addr _ => Config.base ≤ addr ∧ addr < Config.base + 0x2000
  | .memWrite addr _ _ => Config.base ≤ addr ∧ addr < Config.base + 0x2000
  | .engine => True
  | .reset => True

/-- A word of the control region that the map gives to no register (20_memory.md R66). -/
def ReservedWord (off : Nat) : Prop :=
  off % 4 = 0 ∧ ((0x018 ≤ off ∧ off < 0x040) ∨ (0x080 ≤ off ∧ off < 0x1000))

/-- A word of the control region that only reads (20_memory.md R66): CFG, RESULT, PROGRESS, RWIDTH[i]. -/
def ReadOnlyWord (off : Nat) : Prop :=
  off = 0x000 ∨ off = 0x010 ∨ off = 0x014 ∨ (off % 4 = 0 ∧ 0x040 ≤ off ∧ off < 0x080)

/-! ### The invariant -/

/-- An operand register is within WMAX, and its bytes at and beyond its width are 0 (10_state.md R21, R23). -/
def FixedInt.Fits (wmax : Byte) (f : FixedInt) : Prop :=
  f.width.toNat ≤ wmax.toNat ∧ f.bytes < 256 ^ f.width.toNat

/-- What a latched command may hold: destinations that are allocated FixedInts within WMAX, events in `1..2*WMAX`
(10_state.md R33), a RESULT in `0..2*WMAX` (R32). -/
def Latched.Fits (wmax : Byte) (l : Latched) : Prop :=
  (∀ p ∈ l.writes, p.2.width ≠ 0#8 ∧ p.2.Fits wmax) ∧
  (∀ k ∈ l.pending, 1 ≤ k ∧ k ≤ 2 * wmax.toNat) ∧
  (∀ v, l.result = some v → v.toNat ≤ 2 * wmax.toNat)

/-- What holds in every state the machine reaches from reset: WMAX is legal (00_scope.md R6); every operand register
keeps 10_state.md R23; a latched command fits; ERRCODE is 0 when ERR is 0 and a code of 60_exceptions.md R283
otherwise; a running command shows neither DONE nor ERR (50_command_cycle.md R253, R260); PROGRESS and RESULT are in
their ranges (10_state.md R32, R33). -/
structure Inv (s : State) : Prop where
  wmax_pos : 1 ≤ s.wmax.toNat
  regs_fit : ∀ r : Reg, (s.reg r).Fits s.wmax
  latched_fits : ∀ l, s.seq = .exec l → l.Fits s.wmax
  errcode_zero : s.status.err = false → s.status.errcode = 0#8
  errcode_legal : s.status.err = true → 1 ≤ s.status.errcode.toNat ∧ s.status.errcode.toNat ≤ 7
  busy_clear : s.busy = true → s.status.done = false ∧ s.status.err = false
  progress_range : s.progress.toNat ≤ 2 * s.wmax.toNat
  result_range : s.result.toNat ≤ 2 * s.wmax.toNat

end Sys2Proof.Machine
end

