-- ==== Sys2Proof/Certificates/Slice0/Obligations.lean ====
section
/-! DEFINITION. The statements about the BigInt Engine for the provers. Each docstring names the rule of spec/ it
formalises. A state is arbitrary unless a hypothesis says otherwise; `{ s with schedule := e :: rest }` is a state whose
next event is `e`. -/

open Sys2Proof Sys2Proof.Machine

/-! ### Encoding (30_encoding.md) -/

/-- Every command, with every field at every value, decodes from its own word (30_encoding.md R102, R105, R108). -/
def Obligations.DecodeOfEncodeIsTheCommand : Prop :=
  ∀ i : Instr, decode (encode i) = .ok i

/-- A word decodes to at most the command whose encoding it is: each legal word has one meaning (R102, R107, R108). -/
def Obligations.EncodeOfDecodeIsTheWord : Prop :=
  ∀ (w : Word) (i : Instr), decode w = .ok i → encode i = w

/-- The OP values of R109 fail at issue with code 1, and no other OP does. -/
def Obligations.IllegalOpcodesFailAtIssue : Prop :=
  ∀ (s : State) (w : Word) (rest : List Event), s.busy = false →
    let op := w.toNat % 256
    let illegal := op = 0x00 ∨ op = 0x06 ∨ op = 0x07 ∨ op = 0x0E ∨ op = 0x0F ∨ op = 0x17 ∨ 0x1A ≤ op
    (illegal → step { s with schedule := .mmioWrite 0x00C 4 w :: rest } =
      .next (failedIssue { s with schedule := rest } w 0x01#8)) ∧
    (¬ illegal → decode w ≠ .error .illegalOpcode)

/-- A legal OP whose word breaks a must-be-zero bit of its row fails at issue with code 2; a word that breaks none is
the encoding of a command (R107, with the masks of R108). -/
def Obligations.ReservedBitsFailAtIssue : Prop :=
  ∀ (s : State) (w mask : Word) (rest : List Event), s.busy = false → rowMask (w.toNat % 256) = some mask →
    ((w &&& mask).toNat ≠ w.toNat % 256 → step { s with schedule := .mmioWrite 0x00C 4 w :: rest } =
      .next (failedIssue { s with schedule := rest } w 0x02#8)) ∧
    ((w &&& mask).toNat = w.toNat % 256 → ∃ i, encode i = w ∧ decode w = .ok i)

/-- The seven worked encodings of R115. -/
def Obligations.WorkedEncodingsDecode : Prop :=
  decode 0x00002111#32 = .ok (.add 1 2) ∧ decode 0x02050302#32 = .ok (.small 3 5 2) ∧
  decode 0x10000001#32 = .ok (.create 0 16) ∧ decode 0x03000410#32 = .ok (.shl 4 3) ∧
  decode 0x00321014#32 = .ok (.divrem 0 1 2 3) ∧ decode 0x00076518#32 = .ok (.mulmod 5 6 7) ∧
  decode 0x00321019#32 = .ok (.powmod 0 1 2 3)

/-! ### Issue (50_command_cycle.md section 1) -/

/-- A step whose event is the host's CMD write of a word that decodes, with the engine idle, runs that command, by
offset and by bus address alike. -/
def Obligations.CmdWriteRunsDecodedCommand : Prop :=
  ∀ (s : State) (w : Word) (i : Instr) (rest : List Event), s.busy = false → decode w = .ok i →
    step { s with schedule := .mmioWrite 0x00C 4 w :: rest } = exec i { s with schedule := rest } ∧
    step { s with schedule := .memWrite (Config.base + 0x00C) 4 w :: rest } = exec i { s with schedule := rest }

/-- CMD (10_state.md R31): a write while idle issues the word and is kept, whether or not the command passes its checks; a write while
BUSY is refused and changes nothing but ACCERR; a read returns it at any time and has no side effect; reset is 0. -/
def Obligations.CmdRegisterKeepsLastIssuedWord : Prop :=
  State.reset.cmd = 0#32 ∧
  ∀ (s : State) (w : Word) (rest : List Event),
    (s.busy = false → ∃ t, step { s with schedule := .mmioWrite 0x00C 4 w :: rest } = .next t ∧ t.cmd = w ∧
      runWord w { s with schedule := rest } = .next t) ∧
    (s.busy = true → step { s with schedule := .mmioWrite 0x00C 4 w :: rest } =
      .next { s with schedule := rest, status := { s.status with accerr := true } }) ∧
    step { s with schedule := .mmioRead 0x00C 4 :: rest } = .next { s with schedule := rest, hostRead := some s.cmd }

/-- Handed to a busy engine, a command is turned away and only ACCERR changes (50_command_cycle.md R252,
20_memory.md R74 (a); that `exec` itself says so is the model's, log 8). -/
def Obligations.ExecWhileBusyChangesOnlyAccerr : Prop :=
  ∀ (i : Instr) (s : State), s.busy = true →
    exec i s = .next { s with status := { s.status with accerr := true } }

/-- Issue makes the checks 3 to 7 of 60_exceptions.md R284 in that order and reports the first that fails; if none
fails, the engine enters EXEC holding the operands and with the destinations, widths and RESULT role of R110. -/
def Obligations.IssueReportsFirstFailedCheck : Prop :=
  ∀ (i : Instr) (s : State), s.busy = false →
    (∀ n, 3 ≤ n → n ≤ 7 → checkFails s i n → (∀ k, 3 ≤ k → k < n → ¬ checkFails s i k) →
      exec i s = .next (failedIssue s (encode i) (BitVec.ofNat 8 n))) ∧
    ((∀ n, 3 ≤ n → n ≤ 7 → ¬ checkFails s i n) →
      ∃ l, exec i s = .next (startedIssue s (encode i) l) ∧ l.instr = i ∧ l.operands = (readsOf i).map s.reg ∧
        l.writes.map (fun p => (p.1, p.2.width)) = writesOf s i ∧ l.result.isSome = writesResult i)

/-- BAD_WIDTH (30_encoding.md R103): CREATE, SMALL and WIDEN with a width immediate of 0 or above WMAX fail with code
3, WIDEN whatever its source register holds; for SHL every K is legal. -/
def Obligations.WidthImmediateOutOfRangeFails : Prop :=
  ∀ (a b : Reg) (v k : Byte) (s : State), s.busy = false →
    ((k.toNat = 0 ∨ s.wmax.toNat < k.toNat) →
      exec (.create a k) s = .next (failedIssue s (encode (.create a k)) 0x03#8) ∧
      exec (.small a v k) s = .next (failedIssue s (encode (.small a v k)) 0x03#8) ∧
      exec (.widen a b k) s = .next (failedIssue s (encode (.widen a b k)) 0x03#8)) ∧
    ((s.reg a).width ≠ 0#8 → ∃ l, exec (.shl a k) s = .next (startedIssue s (encode (.shl a k)) l))

/-- UNALLOCATED (60_exceptions.md R285): a command that reads a register of width 0, and whose width immediate if any
is legal, fails with code 4; a command none of whose read registers has width 0 never reports it, whatever its pure
destinations hold. -/
def Obligations.ReadingUnallocatedRegisterFails : Prop :=
  ∀ (i : Instr) (s : State), s.busy = false →
    (¬ badWidthImmediate s i → (∃ r ∈ readsOf i, (s.reg r).width = 0#8) →
      exec i s = .next (failedIssue s (encode i) 0x04#8)) ∧
    ((∀ r ∈ readsOf i, (s.reg r).width ≠ 0#8) → exec i s ≠ .next (failedIssue s (encode i) 0x04#8))

/-- WIDTH_MISMATCH (60_exceptions.md R286): allocated operands of a command's "same width" column that differ in width
fail with code 5; ASSIGN and WIDEN never report it. -/
def Obligations.OperandWidthsThatDifferFail : Prop :=
  ∀ (i : Instr) (s : State), s.busy = false →
    ((∀ r ∈ readsOf i, (s.reg r).width ≠ 0#8) →
      (∃ r ∈ sameWidthOf i, ∃ q ∈ sameWidthOf i, (s.reg r).width ≠ (s.reg q).width) →
      exec i s = .next (failedIssue s (encode i) 0x05#8)) ∧
    (∀ (a b : Reg) (k : Byte), i = .assign a b ∨ i = .widen a b k →
      exec i s ≠ .next (failedIssue s (encode i) 0x05#8))

/-- OPERAND_CONFLICT (60_exceptions.md R288): DIVREM with one register for both results fails with code 6, also when
the divisor is 0, and nothing is written; no other command reports it. -/
def Obligations.DivremWithEqualDestinationsFails : Prop :=
  ∀ s : State, s.busy = false →
    (∀ a c d : Reg, (s.reg c).width ≠ 0#8 → (s.reg d).width = (s.reg c).width →
      exec (.divrem a a c d) s = .next (failedIssue s (encode (.divrem a a c d)) 0x06#8)) ∧
    (∀ i : Instr, exec i s = .next (failedIssue s (encode i) 0x06#8) → ∃ a c d, i = .divrem a a c d)

/-- DIV_ZERO (60_exceptions.md R287): a zero divisor or modulus fails with code 7, for POWMOD whatever the exponent,
and no register is written. -/
def Obligations.ZeroDivisorFails : Prop :=
  ∀ (a b c d : Reg) (s : State), s.busy = false →
    (a ≠ b → (s.reg c).width ≠ 0#8 → (s.reg d).width = (s.reg c).width → (s.reg d).val = 0 →
      exec (.divrem a b c d) s = .next (failedIssue s (encode (.divrem a b c d)) 0x07#8)) ∧
    ((s.reg a).width ≠ 0#8 → (s.reg b).width = (s.reg a).width → (s.reg b).val = 0 →
      exec (.div a b) s = .next (failedIssue s (encode (.div a b)) 0x07#8) ∧
      exec (.mod a b) s = .next (failedIssue s (encode (.mod a b)) 0x07#8)) ∧
    ((s.reg a).width ≠ 0#8 → (s.reg b).width = (s.reg a).width → (s.reg c).width = (s.reg a).width → (s.reg c).val = 0 →
      exec (.mulmod a b c) s = .next (failedIssue s (encode (.mulmod a b c)) 0x07#8)) ∧
    ((s.reg b).width ≠ 0#8 → (s.reg c).width = (s.reg b).width → (s.reg d).width = (s.reg b).width → (s.reg d).val = 0 →
      exec (.powmod a b c d) s = .next (failedIssue s (encode (.powmod a b c d)) 0x07#8))

/-! ### Execution and commit (50_command_cycle.md section 2) -/

/-- From any state in EXEC, engine steps alone emit the pending events in order and then commit: `n + 1` steps for `n`
events (50_command_cycle.md R260, R263). -/
def Obligations.EngineEmitsEventsThenCommits : Prop :=
  ∀ (s : State) (l : Latched), s.seq = .exec l →
    RunsTo s l.pending
      { s with
        regs := writeRegs s.regs l.writes
        result := l.result.getD s.result
        progress := if l.pending = [] then s.progress else BitVec.ofNat 16 (l.pending.getLastD 0)
        status := { s.status with done := true, prog := s.status.prog || !l.pending.isEmpty }
        seq := .idle }

/-- Whatever host accesses to the block the scheduler puts between a running command's engine steps, the command
commits the same registers and RESULT, with CMD unchanged (50_command_cycle.md R259). -/
def Obligations.EveryInterleavingCommitsTheSameResult : Prop :=
  ∀ (s : State) (l : Latched) (evs rest : List Event), s.seq = .exec l →
    s.schedule = evs ++ .engine :: rest → evs.count .engine = l.pending.length → Event.reset ∉ evs →
    (∀ e ∈ evs, InBlock e) →
    ∃ t, Sys2Proof.core.run (evs.length + 1) s = .next t ∧ t.seq = .idle ∧ t.regs = writeRegs s.regs l.writes ∧
      t.result = l.result.getD s.result ∧ t.status.done = true ∧ t.cmd = s.cmd ∧ t.wmax = s.wmax ∧ t.schedule = rest

/-! ### The commands (40_construct.md to 44_modexp.md)

Each says: issued while idle, with operands that pass the checks, the command is a next state in EXEC; its events and
its commit lead to a state in which only its destination, RESULT if it is a predicate, CMD, PROGRESS and the STATUS
flags of the command cycle differ from before: `completed` is the whole state. -/

/-- CREATE and SMALL (40_construct.md R141, R142). -/
def Obligations.CreateAndSmallMakeFixedInts : Prop :=
  ∀ (a : Reg) (v k : Byte) (s : State), s.busy = false → 1 ≤ k.toNat → k.toNat ≤ s.wmax.toNat →
    (∃ m, exec (.create a k) s = .next m ∧
      RunsTo m [] (completed s (encode (.create a k)) (withReg s.regs a k 0) s.result [])) ∧
    (∃ m, exec (.small a v k) s = .next m ∧
      RunsTo m [] (completed s (encode (.small a v k)) (withReg s.regs a k v.toNat) s.result []))

/-- WIDEN zero-extends or truncates to width K (40_construct.md R143). -/
def Obligations.WidenCopiesAtNewWidth : Prop :=
  ∀ (a b : Reg) (k : Byte) (s : State), s.busy = false → 1 ≤ k.toNat → k.toNat ≤ s.wmax.toNat → (s.reg b).width ≠ 0#8 →
    ∃ m, exec (.widen a b k) s = .next m ∧
      RunsTo m [] (completed s (encode (.widen a b k))
        (withReg s.regs a k ((s.reg b).val % 256 ^ k.toNat)) s.result [])

/-- ASSIGN converts to the destination's own width, CLEAR makes it 0; both keep the width (R144, R145). -/
def Obligations.AssignAndClearKeepWidth : Prop :=
  ∀ (a b : Reg) (s : State), s.busy = false → (s.reg a).width ≠ 0#8 →
    ((s.reg b).width ≠ 0#8 → ∃ m, exec (.assign a b) s = .next m ∧
      RunsTo m [] (completed s (encode (.assign a b))
        (withReg s.regs a (s.reg a).width ((s.reg b).val % 256 ^ (s.reg a).width.toNat)) s.result [])) ∧
    (∃ m, exec (.clear a) s = .next m ∧
      RunsTo m [] (completed s (encode (.clear a)) (withReg s.regs a (s.reg a).width 0) s.result []))

/-- EQ writes 1 to RESULT if the values are equal and 0 otherwise (41_compare.md R163). -/
def Obligations.EqComparesValues : Prop :=
  ∀ (a b : Reg) (s : State), s.busy = false → (s.reg a).width ≠ 0#8 → (s.reg b).width = (s.reg a).width →
    ∃ m, exec (.eq a b) s = .next m ∧
      RunsTo m [] (completed s (encode (.eq a b)) s.regs (if (s.reg a).val = (s.reg b).val then 1#32 else 0#32) [])

/-- NZ and EVEN write 0 or 1 to RESULT (41_compare.md R164, R168). -/
def Obligations.NzAndEvenTestValue : Prop :=
  ∀ (a : Reg) (s : State), s.busy = false → (s.reg a).width ≠ 0#8 →
    (∃ m, exec (.nz a) s = .next m ∧
      RunsTo m [] (completed s (encode (.nz a)) s.regs (if (s.reg a).val ≠ 0 then 1#32 else 0#32) [])) ∧
    (∃ m, exec (.even a) s = .next m ∧
      RunsTo m [] (completed s (encode (.even a)) s.regs (if (s.reg a).val % 2 = 0 then 1#32 else 0#32) []))

/-- GT and GE, by the digit comparison, are the numeric order of the values (41_compare.md R161, R165, R166). -/
def Obligations.GtAndGeAreNumericOrder : Prop :=
  ∀ (a b : Reg) (s : State), s.busy = false → (s.reg a).width ≠ 0#8 → (s.reg b).width = (s.reg a).width →
    (∃ m, exec (.gt a b) s = .next m ∧
      RunsTo m [] (completed s (encode (.gt a b)) s.regs (if (s.reg a).val > (s.reg b).val then 1#32 else 0#32) [])) ∧
    (∃ m, exec (.ge a b) s = .next m ∧
      RunsTo m [] (completed s (encode (.ge a b)) s.regs (if (s.reg a).val ≥ (s.reg b).val then 1#32 else 0#32) []))

/-- SDC writes the least `n` with `v < 16^n` (41_compare.md R162, R167). -/
def Obligations.SdcIsLeastDigitBound : Prop :=
  ∀ (a : Reg) (s : State), s.busy = false → (s.reg a).width ≠ 0#8 →
    ∃ m n, exec (.sdc a) s = .next m ∧
      RunsTo m [] (completed s (encode (.sdc a)) s.regs (BitVec.ofNat 32 n) []) ∧
      n ≤ 2 * (s.reg a).width.toNat ∧ (s.reg a).val < 16 ^ n ∧ ∀ k, (s.reg a).val < 16 ^ k → n ≤ k

/-- SHL multiplies by `16^K` modulo `M(w)`: digit `j` of the result is digit `j - K` of the operand, and 0 below K
(42_arith.md R181). -/
def Obligations.ShlShiftsDigits : Prop :=
  ∀ (a : Reg) (k : Byte) (s : State), s.busy = false → (s.reg a).width ≠ 0#8 →
    ∃ m v, exec (.shl a k) s = .next m ∧
      RunsTo m [] (completed s (encode (.shl a k)) (withReg s.regs a (s.reg a).width v) s.result []) ∧
      v = (s.reg a).val * 16 ^ k.toNat % 256 ^ (s.reg a).width.toNat ∧
      ∀ j, j < 2 * (s.reg a).width.toNat →
        digit v j = if k.toNat ≤ j then digit (s.reg a).val (j - k.toNat) else 0

/-- ADD's ripple carry is the sum modulo `M(w)` (42_arith.md R182). -/
def Obligations.AddIsSumModuloWidth : Prop :=
  ∀ (a b : Reg) (s : State), s.busy = false → (s.reg a).width ≠ 0#8 → (s.reg b).width = (s.reg a).width →
    ∃ m, exec (.add a b) s = .next m ∧
      RunsTo m [] (completed s (encode (.add a b))
        (withReg s.regs a (s.reg a).width (((s.reg a).val + (s.reg b).val) % 256 ^ (s.reg a).width.toNat)) s.result [])

/-- SUB's ripple borrow is the difference modulo `M(w)`: `a - b`, plus `M(w)` if `a < b` (42_arith.md R183). -/
def Obligations.SubIsDifferenceModuloWidth : Prop :=
  ∀ (a b : Reg) (s : State), s.busy = false → (s.reg a).width ≠ 0#8 → (s.reg b).width = (s.reg a).width →
    ∃ m, exec (.sub a b) s = .next m ∧
      RunsTo m [] (completed s (encode (.sub a b))
        (withReg s.regs a (s.reg a).width
          (if (s.reg a).val < (s.reg b).val then (s.reg a).val + 256 ^ (s.reg a).width.toNat - (s.reg b).val
           else (s.reg a).val - (s.reg b).val)) s.result [])

/-- MUL's loop gives the product modulo `M(w)`, and its progress events are each digit position once per unit of the
multiplier's digit (42_arith.md R184 to R186). -/
def Obligations.MulIsProductWithUnitEvents : Prop :=
  ∀ (a b : Reg) (s : State), s.busy = false → (s.reg a).width ≠ 0#8 → (s.reg b).width = (s.reg a).width →
    ∃ m, exec (.mul a b) s = .next m ∧
      RunsTo m (unitEvents (s.reg a).width.toNat (s.reg b).val)
        (completed s (encode (.mul a b))
          (withReg s.regs a (s.reg a).width ((s.reg a).val * (s.reg b).val % 256 ^ (s.reg a).width.toNat)) s.result
          (unitEvents (s.reg a).width.toNat (s.reg b).val))

/-- DIVREM writes the one pair `(q, r)` with `a = q * d + r` and `r < d` to its two destinations, which may be its own
sources (43_divide.md R201, R202). -/
def Obligations.DivremWritesQuotientAndRemainder : Prop :=
  ∀ (a b c d : Reg) (s : State), s.busy = false → (s.reg c).width ≠ 0#8 → (s.reg d).width = (s.reg c).width → a ≠ b →
    (s.reg d).val ≠ 0 →
    ∃ m q r, exec (.divrem a b c d) s = .next m ∧
      RunsTo m [] (completed s (encode (.divrem a b c d))
        (withReg (withReg s.regs a (s.reg c).width q) b (s.reg c).width r) s.result []) ∧
      (s.reg c).val = q * (s.reg d).val + r ∧ r < (s.reg d).val ∧ q ≤ (s.reg c).val

/-- DIV and MOD write the quotient and the remainder in place (43_divide.md R203, R204). -/
def Obligations.DivAndModAreFloorDivision : Prop :=
  ∀ (a b : Reg) (s : State), s.busy = false → (s.reg a).width ≠ 0#8 → (s.reg b).width = (s.reg a).width →
    (s.reg b).val ≠ 0 →
    (∃ m, exec (.div a b) s = .next m ∧
      RunsTo m [] (completed s (encode (.div a b))
        (withReg s.regs a (s.reg a).width ((s.reg a).val / (s.reg b).val)) s.result [])) ∧
    (∃ m, exec (.mod a b) s = .next m ∧
      RunsTo m [] (completed s (encode (.mod a b))
        (withReg s.regs a (s.reg a).width ((s.reg a).val % (s.reg b).val)) s.result []))

/-- MULMOD gives `(a * x) mod n` exactly on both its paths, with the events of the multiplier `x` on both
(44_modexp.md R221, R222). -/
def Obligations.MulmodIsExactOnBothPaths : Prop :=
  ∀ (a b c : Reg) (s : State), s.busy = false → (s.reg a).width ≠ 0#8 → (s.reg b).width = (s.reg a).width →
    (s.reg c).width = (s.reg a).width → (s.reg c).val ≠ 0 →
    ∃ m, exec (.mulmod a b c) s = .next m ∧
      RunsTo m (unitEvents (s.reg a).width.toNat (s.reg b).val)
        (completed s (encode (.mulmod a b c))
          (withReg s.regs a (s.reg a).width ((s.reg a).val * (s.reg b).val % (s.reg c).val)) s.result
          (unitEvents (s.reg a).width.toNat (s.reg b).val))

/-- POWMOD's square-and-multiply gives `b^e mod m` for `e >= 1` and 1 for `e = 0`, whatever `m` is, with the events of
its `bitlen(e) - 1` squarings and `popcount(e)` multiplications in loop order (44_modexp.md R223 to R225). -/
def Obligations.PowmodIsModularPower : Prop :=
  ∀ (a b c d : Reg) (s : State), s.busy = false → (s.reg b).width ≠ 0#8 → (s.reg c).width = (s.reg b).width →
    (s.reg d).width = (s.reg b).width → (s.reg d).val ≠ 0 →
    ∃ m, exec (.powmod a b c d) s = .next m ∧
      RunsTo m (powEvents (s.reg b).width.toNat (s.reg b).val (s.reg c).val (s.reg d).val)
        (completed s (encode (.powmod a b c d))
          (withReg s.regs a (s.reg b).width
            (if (s.reg c).val = 0 then 1 else (s.reg b).val ^ (s.reg c).val % (s.reg d).val)) s.result
          (powEvents (s.reg b).width.toNat (s.reg b).val (s.reg c).val (s.reg d).val))

/-! ### Laws of the commands -/

/-- What a command will write, emit and leave in RESULT depends on its latched operands, its fields and WMAX alone: in
any other idle state that agrees on the registers it reads, it latches the same (50_command_cycle.md R257). -/
def Obligations.ResultsDependOnlyOnLatchedOperands : Prop :=
  ∀ (i : Instr) (s s' : State) (l : Latched), s.busy = false → s'.busy = false → s'.wmax = s.wmax →
    (∀ r ∈ readsOf i, s'.reg r = s.reg r) →
    exec i s = .next (startedIssue s (encode i) l) → exec i s' = .next (startedIssue s' (encode i) l)

/-- `GE rA, rA` gives 1, `GT rA, rA` gives 0, and `GT rA, rB` and `GT rB, rA` never both give 1 (41_compare.md
R169). -/
def Obligations.CompareLawsHold : Prop :=
  ∀ (a b : Reg) (s : State), s.busy = false → (s.reg a).width ≠ 0#8 →
    (∃ m, exec (.ge a a) s = .next m ∧ (engineRun 1 m).busy = false ∧ (engineRun 1 m).result = 1#32) ∧
    (∃ m, exec (.gt a a) s = .next m ∧ (engineRun 1 m).busy = false ∧ (engineRun 1 m).result = 0#32) ∧
    ((s.reg b).width = (s.reg a).width → ∃ m n, exec (.gt a b) s = .next m ∧ exec (.gt b a) s = .next n ∧
      (engineRun 1 m).busy = false ∧ (engineRun 1 n).busy = false ∧
      ¬ ((engineRun 1 m).result = 1#32 ∧ (engineRun 1 n).result = 1#32))

/-- ADD then SUB of the same other register restores the value, also when the sum wrapped (42_arith.md R187). -/
def Obligations.AddThenSubRestoresValue : Prop :=
  ∀ (a b : Reg) (s : State), s.busy = false → a ≠ b → (s.reg a).width ≠ 0#8 → (s.reg b).width = (s.reg a).width →
    ∃ m n, exec (.add a b) s = .next m ∧ exec (.sub a b) (engineRun 1 m) = .next n ∧
      (engineRun 1 n).busy = false ∧
      ((engineRun 1 n).reg a).width = (s.reg a).width ∧ ((engineRun 1 n).reg a).val = (s.reg a).val ∧
      ∀ r, r ≠ a → (engineRun 1 n).reg r = s.reg r

/-- The engine's exponentiation makes the two sides of a Diffie-Hellman exchange agree on `g^(x y) mod p`
(44_modexp.md R229; the exchanger itself is host software, 00_scope.md R5). -/
def Obligations.PowmodMakesExchangesAgree : Prop :=
  ∀ (w g x y p : Nat), p ≠ 0 → 1 ≤ x → 1 ≤ y → g < 256 ^ w → x < 256 ^ w → y < 256 ^ w → p < 256 ^ w →
    (powmodw w (powmodw w g y p).1 x p).1 = g ^ (x * y) % p ∧
    (powmodw w (powmodw w g x p).1 y p).1 = g ^ (x * y) % p

/-- The commands that do not create a FixedInt change no width tag, from issue through commit and after
(10_state.md R22). -/
def Obligations.WidthTagsKeptByOtherCommands : Prop :=
  ∀ (i : Instr) (s m : State) (n : Nat) (r : Reg), s.busy = false → setsWidthTag i = false → exec i s = .next m →
    ((engineRun n m).reg r).width = (s.reg r).width

/-! ### Registers and the host's accesses (10_state.md section 3, 20_memory.md) -/

/-- CFG reads `{0x00, 1, 16, WMAX}` and ignores writes, and no step of any agent changes it (10_state.md R27). -/
def Obligations.CfgIsAConstantIdentification : Prop :=
  (∀ (s : State) (v : Word) (rest : List Event),
    step { s with schedule := .mmioRead 0x000 4 :: rest } = .next { s with
      schedule := rest, hostRead := some (BitVec.ofNat 32 (0x00011000 + s.wmax.toNat)) } ∧
    step { s with schedule := .mmioWrite 0x000 4 v :: rest } = .next { s with schedule := rest }) ∧
  (∀ s t : State, step s = .next t → cfgWord t = cfgWord s)

/-- CTRL (10_state.md R28): a write at any time, while BUSY too, sets the three enables and nothing else; a read
returns them with bits [31:3] zero; reset is 0. -/
def Obligations.CtrlHoldsThreeEnables : Prop :=
  State.reset.ctrl = ⟨false, false, false⟩ ∧
  ∀ (s : State) (v : Word) (rest : List Event),
    step { s with schedule := .mmioWrite 0x004 4 v :: rest } = .next { s with
      schedule := rest, ctrl := ⟨v.getLsbD 0, v.getLsbD 1, v.getLsbD 2⟩ } ∧
    ∃ d : Word, step { s with schedule := .mmioRead 0x004 4 :: rest } = .next { s with
      schedule := rest, hostRead := some d } ∧
      d.toNat = s.ctrl.donie.toNat + 2 * s.ctrl.errie.toNat + 4 * s.ctrl.progie.toNat

/-- STATUS reads BUSY, DONE, ERR, PROG, ACCERR at bits 0 to 4 and ERRCODE at [15:8], other bits 0, with no side effect;
BUSY is the sequencer's state (10_state.md R29, 50_command_cycle.md R251). -/
def Obligations.StatusReadsItsFields : Prop :=
  ∀ (s : State) (rest : List Event), ∃ d : Word,
    step { s with schedule := .mmioRead 0x008 4 :: rest } = .next { s with schedule := rest, hostRead := some d } ∧
    d.toNat = s.busy.toNat + 2 * s.status.done.toNat + 4 * s.status.err.toNat + 8 * s.status.prog.toNat +
      16 * s.status.accerr.toNat + 256 * s.status.errcode.toNat ∧
    (s.busy = true ↔ s.seq ≠ .idle)

/-- A write of `v` to STATUS, at any time, clears the flags whose bit is 1, and ERRCODE with ERR; BUSY, ERRCODE and the
reserved bits of `v` are ignored (10_state.md R30). -/
def Obligations.StatusWriteOneClears : Prop :=
  ∀ (s : State) (v : Word) (rest : List Event),
    (∃ t, step { s with schedule := .mmioWrite 0x008 4 v :: rest } = .next t ∧
      t = { s with schedule := rest, status := t.status } ∧
      t.status.done = (if v.getLsbD 1 then false else s.status.done) ∧
      t.status.err = (if v.getLsbD 2 then false else s.status.err) ∧
      t.status.errcode = (if v.getLsbD 2 then 0#8 else s.status.errcode) ∧
      t.status.prog = (if v.getLsbD 3 then false else s.status.prog) ∧
      t.status.accerr = (if v.getLsbD 4 then false else s.status.accerr)) ∧
    (∃ d, step { s with schedule := .mmioRead 0x008 4 :: rest } = .next { s with schedule := rest, hostRead := some d })

/-- RESULT, PROGRESS and RWIDTH[i] are read at any time, with no side effect; RWIDTH shows the width tag
(10_state.md R32, R33, R34). -/
def Obligations.ResultProgressAndWidthsAreReadable : Prop :=
  ∀ (s : State) (i : Reg) (rest : List Event),
    step { s with schedule := .mmioRead 0x010 4 :: rest } = .next { s with schedule := rest, hostRead := some s.result } ∧
    step { s with schedule := .mmioRead 0x014 4 :: rest } = .next { s with
      schedule := rest, hostRead := some (BitVec.ofNat 32 s.progress.toNat) } ∧
    step { s with schedule := .mmioRead (0x040 + 4 * i.val) 4 :: rest } = .next { s with
      schedule := rest, hostRead := some (BitVec.ofNat 32 (s.reg i).width.toNat) }

/-- A reserved word reads 0 and ignores writes; a read-only register ignores writes; none is an error (20_memory.md
R67). -/
def Obligations.ReservedAndReadOnlyWordsIgnoreWrites : Prop :=
  ∀ (s : State) (off : Nat) (v : Word) (rest : List Event),
    (ReservedWord off ∨ ReadOnlyWord off →
      step { s with schedule := .mmioWrite off 4 v :: rest } = .next { s with schedule := rest }) ∧
    (ReservedWord off →
      step { s with schedule := .mmioRead off 4 :: rest } = .next { s with schedule := rest, hostRead := some 0#32 })

/-- The accesses of 20_memory.md R74 (a) to (d), and no others, are refused: a refused access sets ACCERR and changes
nothing else, a refused read returns 0; a performed read changes nothing; a performed write sets no ACCERR. -/
def Obligations.RefusedAccessesAreExactlyThese : Prop :=
  ∀ (s : State) (off n : Nat) (v : Word) (rest : List Event), off < 0x2000 →
    (RefusedWrite s off n → step { s with schedule := .mmioWrite off n v :: rest } =
      .next { s with schedule := rest, status := { s.status with accerr := true } }) ∧
    (RefusedRead s off n → step { s with schedule := .mmioRead off n :: rest } =
      .next { s with schedule := rest, status := { s.status with accerr := true }, hostRead := some 0#32 }) ∧
    (¬ RefusedRead s off n → ∃ d, step { s with schedule := .mmioRead off n :: rest } =
      .next { s with schedule := rest, hostRead := some d }) ∧
    (¬ RefusedWrite s off n → ∃ t, step { s with schedule := .mmioWrite off n v :: rest } = .next t ∧
      t.status.accerr = (if off = 0x008 ∧ v.getLsbD 4 then false else s.status.accerr))

/-- A one-byte window read while idle returns the byte below the width and 0 from the width on. In a register that
keeps the storage form of 10_state.md R23 that is `Ri.byte[j]`, and 0 from WMAX on (20_memory.md R69). -/
def Obligations.WindowByteReadsWithinWidth : Prop :=
  ∀ (s : State) (i : Reg) (j : Nat) (rest : List Event), s.busy = false → j < 256 →
    ∃ d : Nat, step { s with schedule := .mmioRead (0x1000 + 0x100 * i.val + j) 1 :: rest } = .next { s with
      schedule := rest, hostRead := some (BitVec.ofNat 32 d) } ∧
    d = (if j < (s.reg i).width.toNat then (s.reg i).bytes / 256 ^ j % 256 else 0) ∧
    ((s.reg i).Fits s.wmax → d = (s.reg i).bytes / 256 ^ j % 256 ∧ (s.wmax.toNat ≤ j → d = 0))

/-- An aligned 32-bit window read at `4m` returns bits `32m..32m+31` of the value and a 16-bit read at `2m` its bits
`16m..16m+15`; digit `d` of the value is nibble `d mod 8` of 32-bit word `d div 8` (20_memory.md R78). -/
def Obligations.WindowWordsAreSlicesOfTheValue : Prop :=
  ∀ (s : State) (i : Reg) (m : Nat) (rest : List Event), s.busy = false →
    (m < 64 → ∃ x : Word, step { s with schedule := .mmioRead (0x1000 + 0x100 * i.val + 4 * m) 4 :: rest } = .next { s with
      schedule := rest, hostRead := some x } ∧ x.toNat = (s.reg i).val / 2 ^ (32 * m) % 2 ^ 32 ∧
      ∀ d, d / 8 = m → digit (s.reg i).val d = x.toNat / 16 ^ (d % 8) % 16) ∧
    (m < 128 → step { s with schedule := .mmioRead (0x1000 + 0x100 * i.val + 2 * m) 2 :: rest } = .next { s with
      schedule := rest, hostRead := some (BitVec.ofNat 32 ((s.reg i).val / 2 ^ (16 * m) % 2 ^ 16)) })

/-- An aligned window write of `n` bytes at byte `j` of Ri while idle stores, of the bytes `j..j+n-1`, those below the
width, byte `j + t` from data bits `8t..8t+7`; every other byte, every width tag and every other register stay
(20_memory.md R70, R71). -/
def Obligations.WindowWriteStoresBytesWithinWidth : Prop :=
  ∀ (s : State) (i : Reg) (j n : Nat) (v : Word) (rest : List Event), s.busy = false → j < 256 →
    (n = 1 ∨ n = 2 ∨ n = 4) → j % n = 0 →
    ∃ t, step { s with schedule := .mmioWrite (0x1000 + 0x100 * i.val + j) n v :: rest } = .next t ∧
      t = { s with schedule := rest, regs := t.regs } ∧ (∀ r, r ≠ i → t.reg r = s.reg r) ∧
      (t.reg i).width = (s.reg i).width ∧
      ∀ k, (t.reg i).bytes / 256 ^ k % 256 =
        if j ≤ k ∧ k < j + n ∧ k < (s.reg i).width.toNat then v.toNat / 256 ^ (k - j) % 256
        else (s.reg i).bytes / 256 ^ k % 256

/-- An access by bus address `BASE + off` is the access by offset `off`; BASE is a multiple of 0x2000
(00_scope.md R8, R14). -/
def Obligations.BusAddressReachesOffset : Prop :=
  Config.base % 0x2000 = 0 ∧
  ∀ (s : State) (off n : Nat) (v : Word) (rest : List Event), off < 0x2000 →
    step { s with schedule := .memRead (Config.base + off) n :: rest } =
      step { s with schedule := .mmioRead off n :: rest } ∧
    step { s with schedule := .memWrite (Config.base + off) n v :: rest } =
      step { s with schedule := .mmioWrite off n v :: rest }

/-- A step ends in a fault only on a bus access outside the block, and then always; nothing is ever refused. That such
an access faults is the model's choice (log 10; 20_memory.md R61, 93_implementation_defined.md P14). -/
def Obligations.OnlyAccessesOutsideTheBlockStop : Prop :=
  ∀ s : State,
    ((∃ e rest, s.schedule = e :: rest ∧ ¬ InBlock e) → step s = .fault .outsideBlock) ∧
    ((∀ e rest, s.schedule = e :: rest → InBlock e) → ∃ t, step s = .next t)

/-! ### Interrupt, reset, and rules over the whole machine -/

/-- The IRQ equation, on the bits of the STATUS and CTRL words the host reads (60_exceptions.md R291). -/
def Obligations.IrqFollowsStatusAndCtrl : Prop :=
  ∀ s : State,
    s.irq = (((statusWord s).getLsbD 1 && (ctrlWord s).getLsbD 0) ||
      (((statusWord s).getLsbD 2 || (statusWord s).getLsbD 4) && (ctrlWord s).getLsbD 1) ||
      ((statusWord s).getLsbD 3 && (ctrlWord s).getLsbD 2))

/-- The reset values of 10_state.md R39: with the sequencer idle there is no latched command, scratch or pending event.
CFG is a constant of every run. -/
def Obligations.ResetValues : Prop :=
  (∀ r : Reg, State.reset.reg r = ⟨0#8, 0⟩) ∧ cfgWord State.reset = BitVec.ofNat 32 (0x00011000 + Config.wmax.toNat) ∧
  ctrlWord State.reset = 0#32 ∧ statusWord State.reset = 0#32 ∧ State.reset.cmd = 0#32 ∧ State.reset.result = 0#32 ∧
  progressWord State.reset = 0#32 ∧ State.reset.seq = .idle ∧ State.reset.irq = false ∧
  ∀ s t : State, step s = .next t → cfgWord t = cfgWord s

/-- Hardware reset from any state, in EXEC too, sets every piece of the engine's state to its reset value, with no
commit and no event, and drives IRQ to 0 (70_reset_and_hazards.md R321). -/
def Obligations.HardwareResetFromAnyState : Prop :=
  ∀ (s : State) (rest : List Event),
    ∃ t, step { s with schedule := .reset :: rest } = .next t ∧ (∀ r : Reg, t.reg r = ⟨0#8, 0⟩) ∧ t.wmax = s.wmax ∧
      t.ctrl = ⟨false, false, false⟩ ∧ t.status = ⟨false, false, false, false, 0#8⟩ ∧ t.cmd = 0#32 ∧
      t.result = 0#32 ∧ t.progress = 0#16 ∧ t.seq = .idle ∧ t.irq = false ∧ t.schedule = rest

/-- The operand registers change only by a commit, by a host write to the window while idle, or by hardware reset
(10_state.md R25). -/
def Obligations.OnlyCommitWindowOrResetChangesRegisters : Prop :=
  ∀ s t : State, step s = .next t → t.regs ≠ s.regs →
    (∃ l, s.seq = .exec l ∧ l.pending = [] ∧ (s.schedule = [] ∨ ∃ rest, s.schedule = .engine :: rest)) ∨
    (s.busy = false ∧ ∃ off n v rest, (s.schedule = .mmioWrite off n v :: rest ∨
      s.schedule = .memWrite (Config.base + off) n v :: rest) ∧ 0x1000 ≤ off ∧ off < 0x2000) ∨
    (∃ rest, s.schedule = .reset :: rest)

/-- RESULT changes only by the commit of a command that has a result, or by hardware reset (10_state.md R32). -/
def Obligations.OnlyPredicateCommitsChangeResult : Prop :=
  ∀ s t : State, step s = .next t → t.result ≠ s.result →
    (∃ l v, s.seq = .exec l ∧ l.pending = [] ∧ l.result = some v ∧ t.result = v ∧
      (s.schedule = [] ∨ ∃ rest, s.schedule = .engine :: rest)) ∨
    (∃ rest, s.schedule = .reset :: rest)

/-- The invariant holds at reset. -/
def Obligations.InvariantHoldsAtReset : Prop := Inv State.reset

/-- Every step of every agent, from every state that has the invariant, keeps it (10_state.md R23, R29, R32, R33;
60_exceptions.md R283). -/
def Obligations.EveryStepKeepsTheInvariant : Prop :=
  ∀ s t : State, Inv s → step s = .next t → Inv t
end

