-- ==== Sys2Proof/Laws/State.lean ====
section
/-! SUPPORT. One lemma per field and per named update of State, so that no proof unfolds a record update, and BUSY
after each update. -/

namespace Sys2Proof.Machine

open Sys2Proof

@[simp] theorem busy_of_idle (s : State) (h : s.seq = .idle) : s.busy = false := by simp [State.busy, h]

@[simp] theorem busy_of_exec (s : State) (l : Latched) (h : s.seq = .exec l) : s.busy = true := by simp [State.busy, h]

theorem seq_idle_of_not_busy {s : State} (h : s.busy = false) : s.seq = .idle := by
  cases hs : s.seq with
  | idle => rfl
  | exec l => simp [State.busy, hs] at h

theorem seq_exec_of_busy {s : State} (h : s.busy = true) : ∃ l, s.seq = .exec l := by
  cases hs : s.seq with
  | idle => simp [State.busy, hs] at h
  | exec l => exact ⟨l, rfl⟩

variable (s : State)

@[simp] theorem setCtrl_wmax (v : Word) : (s.setCtrl v).wmax = s.wmax := rfl
@[simp] theorem setCtrl_regs (v : Word) : (s.setCtrl v).regs = s.regs := rfl
@[simp] theorem setCtrl_ctrl (v : Word) : (s.setCtrl v).ctrl = ⟨v.getLsbD 0, v.getLsbD 1, v.getLsbD 2⟩ := rfl
@[simp] theorem setCtrl_status (v : Word) : (s.setCtrl v).status = s.status := rfl
@[simp] theorem setCtrl_cmd (v : Word) : (s.setCtrl v).cmd = s.cmd := rfl
@[simp] theorem setCtrl_result (v : Word) : (s.setCtrl v).result = s.result := rfl
@[simp] theorem setCtrl_progress (v : Word) : (s.setCtrl v).progress = s.progress := rfl
@[simp] theorem setCtrl_seq (v : Word) : (s.setCtrl v).seq = s.seq := rfl
@[simp] theorem setCtrl_schedule (v : Word) : (s.setCtrl v).schedule = s.schedule := rfl
@[simp] theorem setCtrl_hostRead (v : Word) : (s.setCtrl v).hostRead = s.hostRead := rfl
@[simp] theorem setCtrl_busy (v : Word) : (s.setCtrl v).busy = s.busy := rfl

@[simp] theorem acknowledge_wmax (v : Word) : (s.acknowledge v).wmax = s.wmax := rfl
@[simp] theorem acknowledge_regs (v : Word) : (s.acknowledge v).regs = s.regs := rfl
@[simp] theorem acknowledge_ctrl (v : Word) : (s.acknowledge v).ctrl = s.ctrl := rfl
@[simp] theorem acknowledge_status (v : Word) : (s.acknowledge v).status = clearStatus s.status v := rfl
@[simp] theorem acknowledge_cmd (v : Word) : (s.acknowledge v).cmd = s.cmd := rfl
@[simp] theorem acknowledge_result (v : Word) : (s.acknowledge v).result = s.result := rfl
@[simp] theorem acknowledge_progress (v : Word) : (s.acknowledge v).progress = s.progress := rfl
@[simp] theorem acknowledge_seq (v : Word) : (s.acknowledge v).seq = s.seq := rfl
@[simp] theorem acknowledge_schedule (v : Word) : (s.acknowledge v).schedule = s.schedule := rfl
@[simp] theorem acknowledge_hostRead (v : Word) : (s.acknowledge v).hostRead = s.hostRead := rfl
@[simp] theorem acknowledge_busy (v : Word) : (s.acknowledge v).busy = s.busy := rfl

@[simp] theorem raiseCmdError_wmax (e : CmdError) : (s.raiseCmdError e).wmax = s.wmax := rfl
@[simp] theorem raiseCmdError_regs (e : CmdError) : (s.raiseCmdError e).regs = s.regs := rfl
@[simp] theorem raiseCmdError_ctrl (e : CmdError) : (s.raiseCmdError e).ctrl = s.ctrl := rfl
@[simp] theorem raiseCmdError_status (e : CmdError) : (s.raiseCmdError e).status = { s.status with done := true, err := true, errcode := errorCode e } := rfl
@[simp] theorem raiseCmdError_cmd (e : CmdError) : (s.raiseCmdError e).cmd = s.cmd := rfl
@[simp] theorem raiseCmdError_result (e : CmdError) : (s.raiseCmdError e).result = s.result := rfl
@[simp] theorem raiseCmdError_progress (e : CmdError) : (s.raiseCmdError e).progress = s.progress := rfl
@[simp] theorem raiseCmdError_seq (e : CmdError) : (s.raiseCmdError e).seq = s.seq := rfl
@[simp] theorem raiseCmdError_schedule (e : CmdError) : (s.raiseCmdError e).schedule = s.schedule := rfl
@[simp] theorem raiseCmdError_hostRead (e : CmdError) : (s.raiseCmdError e).hostRead = s.hostRead := rfl
@[simp] theorem raiseCmdError_busy (e : CmdError) : (s.raiseCmdError e).busy = s.busy := rfl

@[simp] theorem refuseAccess_wmax : (s.refuseAccess).wmax = s.wmax := rfl
@[simp] theorem refuseAccess_regs : (s.refuseAccess).regs = s.regs := rfl
@[simp] theorem refuseAccess_ctrl : (s.refuseAccess).ctrl = s.ctrl := rfl
@[simp] theorem refuseAccess_status : (s.refuseAccess).status = { s.status with accerr := true } := rfl
@[simp] theorem refuseAccess_cmd : (s.refuseAccess).cmd = s.cmd := rfl
@[simp] theorem refuseAccess_result : (s.refuseAccess).result = s.result := rfl
@[simp] theorem refuseAccess_progress : (s.refuseAccess).progress = s.progress := rfl
@[simp] theorem refuseAccess_seq : (s.refuseAccess).seq = s.seq := rfl
@[simp] theorem refuseAccess_schedule : (s.refuseAccess).schedule = s.schedule := rfl
@[simp] theorem refuseAccess_hostRead : (s.refuseAccess).hostRead = s.hostRead := rfl
@[simp] theorem refuseAccess_busy : (s.refuseAccess).busy = s.busy := rfl

@[simp] theorem beginIssue_wmax (x : Word) : (s.beginIssue x).wmax = s.wmax := rfl
@[simp] theorem beginIssue_regs (x : Word) : (s.beginIssue x).regs = s.regs := rfl
@[simp] theorem beginIssue_ctrl (x : Word) : (s.beginIssue x).ctrl = s.ctrl := rfl
@[simp] theorem beginIssue_status (x : Word) : (s.beginIssue x).status = { s.status with done := false, err := false, errcode := 0#8, prog := false } := rfl
@[simp] theorem beginIssue_cmd (x : Word) : (s.beginIssue x).cmd = x := rfl
@[simp] theorem beginIssue_result (x : Word) : (s.beginIssue x).result = s.result := rfl
@[simp] theorem beginIssue_progress (x : Word) : (s.beginIssue x).progress = 0#16 := rfl
@[simp] theorem beginIssue_seq (x : Word) : (s.beginIssue x).seq = s.seq := rfl
@[simp] theorem beginIssue_schedule (x : Word) : (s.beginIssue x).schedule = s.schedule := rfl
@[simp] theorem beginIssue_hostRead (x : Word) : (s.beginIssue x).hostRead = s.hostRead := rfl
@[simp] theorem beginIssue_busy (x : Word) : (s.beginIssue x).busy = s.busy := rfl

@[simp] theorem startExec_wmax (l : Latched) : (s.startExec l).wmax = s.wmax := rfl
@[simp] theorem startExec_regs (l : Latched) : (s.startExec l).regs = s.regs := rfl
@[simp] theorem startExec_ctrl (l : Latched) : (s.startExec l).ctrl = s.ctrl := rfl
@[simp] theorem startExec_status (l : Latched) : (s.startExec l).status = s.status := rfl
@[simp] theorem startExec_cmd (l : Latched) : (s.startExec l).cmd = s.cmd := rfl
@[simp] theorem startExec_result (l : Latched) : (s.startExec l).result = s.result := rfl
@[simp] theorem startExec_progress (l : Latched) : (s.startExec l).progress = s.progress := rfl
@[simp] theorem startExec_seq (l : Latched) : (s.startExec l).seq = .exec l := rfl
@[simp] theorem startExec_schedule (l : Latched) : (s.startExec l).schedule = s.schedule := rfl
@[simp] theorem startExec_hostRead (l : Latched) : (s.startExec l).hostRead = s.hostRead := rfl
@[simp] theorem startExec_busy (l : Latched) : (s.startExec l).busy = true := rfl

@[simp] theorem emitProgress_wmax (l : Latched) (k : Nat) (rest : List Nat) : (s.emitProgress l k rest).wmax = s.wmax := rfl
@[simp] theorem emitProgress_regs (l : Latched) (k : Nat) (rest : List Nat) : (s.emitProgress l k rest).regs = s.regs := rfl
@[simp] theorem emitProgress_ctrl (l : Latched) (k : Nat) (rest : List Nat) : (s.emitProgress l k rest).ctrl = s.ctrl := rfl
@[simp] theorem emitProgress_status (l : Latched) (k : Nat) (rest : List Nat) : (s.emitProgress l k rest).status = { s.status with prog := true } := rfl
@[simp] theorem emitProgress_cmd (l : Latched) (k : Nat) (rest : List Nat) : (s.emitProgress l k rest).cmd = s.cmd := rfl
@[simp] theorem emitProgress_result (l : Latched) (k : Nat) (rest : List Nat) : (s.emitProgress l k rest).result = s.result := rfl
@[simp] theorem emitProgress_progress (l : Latched) (k : Nat) (rest : List Nat) : (s.emitProgress l k rest).progress = BitVec.ofNat 16 k := rfl
@[simp] theorem emitProgress_seq (l : Latched) (k : Nat) (rest : List Nat) : (s.emitProgress l k rest).seq = .exec { l with pending := rest } := rfl
@[simp] theorem emitProgress_schedule (l : Latched) (k : Nat) (rest : List Nat) : (s.emitProgress l k rest).schedule = s.schedule := rfl
@[simp] theorem emitProgress_hostRead (l : Latched) (k : Nat) (rest : List Nat) : (s.emitProgress l k rest).hostRead = s.hostRead := rfl
@[simp] theorem emitProgress_busy (l : Latched) (k : Nat) (rest : List Nat) : (s.emitProgress l k rest).busy = true := rfl

@[simp] theorem commit_wmax (l : Latched) : (s.commit l).wmax = s.wmax := rfl
@[simp] theorem commit_regs (l : Latched) : (s.commit l).regs = writeRegs s.regs l.writes := rfl
@[simp] theorem commit_ctrl (l : Latched) : (s.commit l).ctrl = s.ctrl := rfl
@[simp] theorem commit_status (l : Latched) : (s.commit l).status = { s.status with done := true } := rfl
@[simp] theorem commit_cmd (l : Latched) : (s.commit l).cmd = s.cmd := rfl
@[simp] theorem commit_result (l : Latched) : (s.commit l).result = l.result.getD s.result := rfl
@[simp] theorem commit_progress (l : Latched) : (s.commit l).progress = s.progress := rfl
@[simp] theorem commit_seq (l : Latched) : (s.commit l).seq = .idle := rfl
@[simp] theorem commit_schedule (l : Latched) : (s.commit l).schedule = s.schedule := rfl
@[simp] theorem commit_hostRead (l : Latched) : (s.commit l).hostRead = s.hostRead := rfl
@[simp] theorem commit_busy (l : Latched) : (s.commit l).busy = false := rfl

@[simp] theorem hardReset_wmax : (s.hardReset).wmax = s.wmax := rfl
@[simp] theorem hardReset_regs : (s.hardReset).regs = Vector.replicate 16 ⟨0#8, 0⟩ := rfl
@[simp] theorem hardReset_ctrl : (s.hardReset).ctrl = ⟨false, false, false⟩ := rfl
@[simp] theorem hardReset_status : (s.hardReset).status = ⟨false, false, false, false, 0#8⟩ := rfl
@[simp] theorem hardReset_cmd : (s.hardReset).cmd = 0#32 := rfl
@[simp] theorem hardReset_result : (s.hardReset).result = 0#32 := rfl
@[simp] theorem hardReset_progress : (s.hardReset).progress = 0#16 := rfl
@[simp] theorem hardReset_seq : (s.hardReset).seq = .idle := rfl
@[simp] theorem hardReset_schedule : (s.hardReset).schedule = s.schedule := rfl
@[simp] theorem hardReset_hostRead : (s.hardReset).hostRead = s.hostRead := rfl
@[simp] theorem hardReset_busy : (s.hardReset).busy = false := rfl

end Sys2Proof.Machine
end

