-- ==== Sys2Proof/Laws/Ops.lean ====
section
/-! SUPPORT. For each shared operation of the command cycle, once, everything it can do: the issue checks, the issue,
and the engine step. -/

namespace Sys2Proof.Machine

open Sys2Proof

/-! ### Issue checks -/

theorem checkWidth_ok_iff (s : State) (k : Byte) :
    checkWidth s k = .ok () ↔ 1 ≤ k.toNat ∧ k.toNat ≤ s.wmax.toNat := by
  unfold checkWidth
  have hk : k = 0#8 ↔ k.toNat = 0 := by rw [← BitVec.toNat_inj]; simp
  split
  · rename_i h
    rw [hk, BitVec.lt_def] at h
    simp only [reduceCtorEq, false_iff]
    omega
  · rename_i h
    rw [hk, BitVec.lt_def] at h
    simp only [true_iff]
    omega

theorem checkWidth_error_iff (s : State) (k : Byte) (e : CmdError) :
    checkWidth s k = .error e ↔ e = .badWidth ∧ (k.toNat = 0 ∨ s.wmax.toNat < k.toNat) := by
  unfold checkWidth
  have hk : k = 0#8 ↔ k.toNat = 0 := by rw [← BitVec.toNat_inj]; simp
  split
  · rename_i h
    rw [hk, BitVec.lt_def] at h
    exact ⟨fun e => ⟨(Except.error.inj e).symm, h⟩, fun ⟨e, _⟩ => by rw [e]⟩
  · rename_i h
    rw [hk, BitVec.lt_def] at h
    simp [h]

theorem unallocated_iff (f : FixedInt) : f.unallocated = true ↔ f.width = 0#8 := by
  simp [FixedInt.unallocated]

theorem readOperand_ok_iff (s : State) (r : Reg) (f : FixedInt) :
    readOperand s r = .ok f ↔ f = s.reg r ∧ (s.reg r).width ≠ 0#8 := by
  unfold readOperand
  by_cases h : (s.reg r).width = 0#8
  · simp [FixedInt.unallocated, h]
  · simp [FixedInt.unallocated, h, @eq_comm _ _ f]

theorem readOperand_error_iff (s : State) (r : Reg) (e : CmdError) :
    readOperand s r = .error e ↔ e = .unallocated ∧ (s.reg r).width = 0#8 := by
  unfold readOperand
  by_cases h : (s.reg r).width = 0#8
  · simp [FixedInt.unallocated, h, @eq_comm _ _ e]
  · simp [FixedInt.unallocated, h]

/-- Reading an allocated register. -/
theorem readOperand_of_allocated {s : State} {r : Reg} (h : (s.reg r).width ≠ 0#8) :
    readOperand s r = .ok (s.reg r) := (readOperand_ok_iff s r _).2 ⟨rfl, h⟩

/-- Reading an unallocated register. -/
theorem readOperand_of_unallocated {s : State} {r : Reg} (h : (s.reg r).width = 0#8) :
    readOperand s r = .error .unallocated := (readOperand_error_iff s r _).2 ⟨rfl, h⟩

theorem checkSameWidth_of_eq {x y : FixedInt} (h : x.width = y.width) : checkSameWidth x y = .ok () := by
  simp [checkSameWidth, h]

theorem checkSameWidth_of_ne {x y : FixedInt} (h : x.width ≠ y.width) :
    checkSameWidth x y = .error .widthMismatch := by simp [checkSameWidth, h]

theorem checkDistinct_of_ne {a b : Reg} (h : a ≠ b) : checkDistinct a b = .ok () := by simp [checkDistinct, h]

theorem checkDistinct_self (a : Reg) : checkDistinct a a = .error .operandConflict := by simp [checkDistinct]

theorem checkDivisor_of_ne {d : FixedInt} (h : d.val ≠ 0) : checkDivisor d = .ok () := by simp [checkDivisor, h]

theorem checkDivisor_of_eq {d : FixedInt} (h : d.val = 0) : checkDivisor d = .error .divZero := by
  simp [checkDivisor, h]

/-! ### Issue -/

/-- While BUSY an issue is turned away. -/
theorem issueWord_of_busy {s : State} (h : s.busy = true) (x : Word) (c : Except CmdError Latched) :
    s.issueWord x c = s.refuseAccess := by simp [State.issueWord, h]

/-- An issue that fails a check. -/
theorem issueWord_of_error {s : State} (h : s.busy = false) (x : Word) (e : CmdError) :
    s.issueWord x (.error e) = (s.beginIssue x).raiseCmdError e := by simp [State.issueWord, h]

/-- An issue that passes. -/
theorem issueWord_of_ok {s : State} (h : s.busy = false) (x : Word) (l : Latched) :
    s.issueWord x (.ok l) = (s.beginIssue x).startExec l := by simp [State.issueWord, h]

/-- All that an issue can do. -/
theorem issueWord_cases (s : State) (x : Word) (c : Except CmdError Latched) :
    (s.busy = true ∧ s.issueWord x c = s.refuseAccess) ∨
    (∃ e, s.busy = false ∧ c = .error e ∧ s.issueWord x c = (s.beginIssue x).raiseCmdError e) ∨
    (∃ l, s.busy = false ∧ c = .ok l ∧ s.issueWord x c = (s.beginIssue x).startExec l) := by
  cases hb : s.busy with
  | true => exact .inl ⟨rfl, issueWord_of_busy hb x c⟩
  | false =>
    cases c with
    | error e => exact .inr (.inl ⟨e, rfl, rfl, issueWord_of_error hb x e⟩)
    | ok l => exact .inr (.inr ⟨l, rfl, rfl, issueWord_of_ok hb x l⟩)

/-- An issue leaves these fields alone, whatever its outcome. -/
theorem issueWord_frame (s : State) (x : Word) (c : Except CmdError Latched) :
    (s.issueWord x c).wmax = s.wmax ∧ (s.issueWord x c).regs = s.regs ∧ (s.issueWord x c).ctrl = s.ctrl ∧
    (s.issueWord x c).result = s.result ∧ (s.issueWord x c).schedule = s.schedule ∧
    (s.issueWord x c).hostRead = s.hostRead := by
  rcases issueWord_cases s x c with ⟨-, h⟩ | ⟨e, -, -, h⟩ | ⟨l, -, -, h⟩ <;> rw [h] <;> simp

/-- The issue of a decoded command always gives a next state. -/
theorem issue_next (i : Instr) (s : State) (c : Except CmdError Latched) :
    issue i s c = .next (s.issueWord (encode i) c) := rfl

/-! ### Engine step -/

theorem engineStep_idle {s : State} (h : s.seq = .idle) : s.engineStep = s := by simp [State.engineStep, h]

theorem engineStep_event {s : State} {l : Latched} {k : Nat} {rest : List Nat} (h : s.seq = .exec l)
    (hp : l.pending = k :: rest) : s.engineStep = s.emitProgress l k rest := by simp [State.engineStep, h, hp]

theorem engineStep_commit {s : State} {l : Latched} (h : s.seq = .exec l) (hp : l.pending = []) :
    s.engineStep = s.commit l := by simp [State.engineStep, h, hp]

/-- All that an engine step can do. -/
theorem engineStep_cases (s : State) :
    (s.seq = .idle ∧ s.engineStep = s) ∨
    (∃ l k rest, s.seq = .exec l ∧ l.pending = k :: rest ∧ s.engineStep = s.emitProgress l k rest) ∨
    (∃ l, s.seq = .exec l ∧ l.pending = [] ∧ s.engineStep = s.commit l) := by
  cases hs : s.seq with
  | idle => exact .inl ⟨rfl, engineStep_idle hs⟩
  | exec l =>
    cases hp : l.pending with
    | nil => exact .inr (.inr ⟨l, rfl, hp, engineStep_commit hs hp⟩)
    | cons k rest => exact .inr (.inl ⟨l, k, rest, rfl, hp, engineStep_event hs hp⟩)

end Sys2Proof.Machine
end

