-- ==== Sys2Proof/Laws/PerInstr.lean ====
section
/-! SUPPORT. Statements for all commands, made per command: the OP byte of every command's word is its row's OP in the
opcode map (30_encoding.md R108). -/

namespace Sys2Proof.Laws

open Sys2Proof

/-- The OP column of the opcode map (30_encoding.md R108). -/
def opcodeOf : Instr → Byte
  | .create _ _ => 0x01#8
  | .small _ _ _ => 0x02#8
  | .widen _ _ _ => 0x03#8
  | .assign _ _ => 0x04#8
  | .clear _ => 0x05#8
  | .eq _ _ => 0x08#8
  | .nz _ => 0x09#8
  | .gt _ _ => 0x0A#8
  | .ge _ _ => 0x0B#8
  | .sdc _ => 0x0C#8
  | .even _ => 0x0D#8
  | .shl _ _ => 0x10#8
  | .add _ _ => 0x11#8
  | .sub _ _ => 0x12#8
  | .mul _ _ => 0x13#8
  | .divrem _ _ _ _ => 0x14#8
  | .div _ _ => 0x15#8
  | .mod _ _ => 0x16#8
  | .mulmod _ _ _ => 0x18#8
  | .powmod _ _ _ _ => 0x19#8

/-- The low byte of a word built by appending an 8-bit OP is that OP. -/
theorem fieldOp_append (x : BitVec 24) (op : Byte) : fieldOp (x ++ op) = op := by
  unfold fieldOp
  ext i hi
  rw [BitVec.getElem_extractLsb', Nat.zero_add, BitVec.getLsbD_append, if_pos hi, BitVec.getLsbD_eq_getElem hi]

def OpcodeByte.Statement (i : Instr) : Prop := fieldOp (encode i) = opcodeOf i

theorem OpcodeByte.create (a : Reg) (k : Byte) : OpcodeByte.Statement (.create a k) := fieldOp_append _ _

theorem OpcodeByte.small (a : Reg) (v k : Byte) : OpcodeByte.Statement (.small a v k) := fieldOp_append _ _

theorem OpcodeByte.widen (a b : Reg) (k : Byte) : OpcodeByte.Statement (.widen a b k) := fieldOp_append _ _

theorem OpcodeByte.assign (a b : Reg) : OpcodeByte.Statement (.assign a b) := fieldOp_append _ _

theorem OpcodeByte.clear (a : Reg) : OpcodeByte.Statement (.clear a) := fieldOp_append _ _

theorem OpcodeByte.eq (a b : Reg) : OpcodeByte.Statement (.eq a b) := fieldOp_append _ _

theorem OpcodeByte.nz (a : Reg) : OpcodeByte.Statement (.nz a) := fieldOp_append _ _

theorem OpcodeByte.gt (a b : Reg) : OpcodeByte.Statement (.gt a b) := fieldOp_append _ _

theorem OpcodeByte.ge (a b : Reg) : OpcodeByte.Statement (.ge a b) := fieldOp_append _ _

theorem OpcodeByte.sdc (a : Reg) : OpcodeByte.Statement (.sdc a) := fieldOp_append _ _

theorem OpcodeByte.even (a : Reg) : OpcodeByte.Statement (.even a) := fieldOp_append _ _

theorem OpcodeByte.shl (a : Reg) (k : Byte) : OpcodeByte.Statement (.shl a k) := fieldOp_append _ _

theorem OpcodeByte.add (a b : Reg) : OpcodeByte.Statement (.add a b) := fieldOp_append _ _

theorem OpcodeByte.sub (a b : Reg) : OpcodeByte.Statement (.sub a b) := fieldOp_append _ _

theorem OpcodeByte.mul (a b : Reg) : OpcodeByte.Statement (.mul a b) := fieldOp_append _ _

theorem OpcodeByte.divrem (a b c d : Reg) : OpcodeByte.Statement (.divrem a b c d) := fieldOp_append _ _

theorem OpcodeByte.div (a b : Reg) : OpcodeByte.Statement (.div a b) := fieldOp_append _ _

theorem OpcodeByte.mod (a b : Reg) : OpcodeByte.Statement (.mod a b) := fieldOp_append _ _

theorem OpcodeByte.mulmod (a b c : Reg) : OpcodeByte.Statement (.mulmod a b c) := fieldOp_append _ _

theorem OpcodeByte.powmod (a b c d : Reg) : OpcodeByte.Statement (.powmod a b c d) := fieldOp_append _ _

end Sys2Proof.Laws
end

