-- ==== Sys2Proof/Laws/Registers.lean ====
section
/-! SUPPORT. The register file: what a write reads back as, what the window operations leave alone, and that every
operation keeps the storage form of 10_state.md R23 (bytes at and beyond the width are 0). -/

namespace Sys2Proof.Machine

open Sys2Proof

/-- The form R23 of 10_state.md asks of an operand register's storage. -/
abbrev FixedInt.wf (f : FixedInt) : Prop := f.bytes < modulus f.width.toNat

theorem modulus_pos (w : Nat) : 0 < modulus w := by unfold modulus; positivity

theorem val_lt (f : FixedInt) : f.val < modulus f.width.toNat := Nat.mod_lt _ (modulus_pos _)

/-- In the storage form, the value is the stored number. -/
theorem val_of_wf {f : FixedInt} (h : f.wf) : f.val = f.bytes := Nat.mod_eq_of_lt h

theorem fixedOf_wf (w : Byte) (v : Nat) : (fixedOf w v).wf := Nat.mod_lt _ (modulus_pos _)

theorem fixedOf_of_lt {w : Byte} {v : Nat} (h : v < modulus w.toNat) : fixedOf w v = ⟨w, v⟩ := by
  simp [fixedOf, Nat.mod_eq_of_lt h]

/-! ### Register writes -/

@[simp] theorem writeReg_self (regs : Vector FixedInt 16) (r : Reg) (f : FixedInt) :
    (writeReg regs r f)[r] = fixedOf f.width f.bytes := by
  simp [writeReg]

theorem writeReg_other (regs : Vector FixedInt 16) {r q : Reg} (f : FixedInt) (h : q ≠ r) :
    (writeReg regs r f)[q] = regs[q] := by
  have : r.val ≠ q.val := fun e => h (Fin.ext e.symm)
  simp [writeReg, this]

@[simp] theorem writeRegs_nil (regs : Vector FixedInt 16) : writeRegs regs [] = regs := rfl

@[simp] theorem writeRegs_cons (regs : Vector FixedInt 16) (r : Reg) (f : FixedInt) (rest : List (Reg × FixedInt)) :
    writeRegs regs ((r, f) :: rest) = writeRegs (writeReg regs r f) rest := rfl

/-- A register written by a commit is in the storage form, and the others are as before. -/
theorem writeRegs_cases (regs : Vector FixedInt 16) (ws : List (Reg × FixedInt)) (q : Reg) :
    (writeRegs regs ws)[q] = regs[q] ∨ ∃ p ∈ ws, p.1 = q ∧ (writeRegs regs ws)[q] = fixedOf p.2.width p.2.bytes := by
  induction ws generalizing regs with
  | nil => exact .inl rfl
  | cons p rest ih =>
    obtain ⟨r, f⟩ := p
    rw [writeRegs_cons]
    rcases ih (writeReg regs r f) with h | ⟨p, hp, hq, h⟩
    · by_cases hr : q = r
      · exact .inr ⟨(r, f), by simp, hr.symm, by rw [h, hr, writeReg_self]⟩
      · exact .inl (by rw [h, writeReg_other regs f hr])
    · exact .inr ⟨p, by simp [hp], hq, h⟩

/-! ### Window operations -/

@[simp] theorem writeByte_width (f : FixedInt) (j d : Nat) : (writeByte f j d).width = f.width := by
  unfold writeByte; split <;> rfl

@[simp] theorem writeLanes_width (f : FixedInt) (j v n : Nat) : (writeLanes f j v n).width = f.width := by
  induction n with
  | zero => rfl
  | succ n ih => simp [writeLanes, ih]

/-- Replacing byte `k` of a number below `256^w` leaves it below, for `k < w`. -/
theorem setByte_lt {v k d w : Nat} (hv : v < 256 ^ w) (hk : k < w) : setByte v k d < 256 ^ w := by
  obtain ⟨m, rfl⟩ : ∃ m, w = k + 1 + m := ⟨w - (k + 1), by omega⟩
  have hp : 0 < 256 ^ k := by positivity
  have h1 : v % 256 ^ k < 256 ^ k := Nat.mod_lt _ hp
  have h2 : d % 256 ≤ 255 := by omega
  have h3 : v / 256 ^ (k + 1) < 256 ^ m := by
    rw [Nat.div_lt_iff_lt_mul (by positivity), mul_comm, ← pow_add]; exact hv
  have h4 : d % 256 * 256 ^ k ≤ 255 * 256 ^ k := Nat.mul_le_mul_right _ h2
  have h5 : (v / 256 ^ (k + 1) + 1) * 256 ^ (k + 1) ≤ 256 ^ m * 256 ^ (k + 1) := Nat.mul_le_mul_right _ h3
  have h6 : 256 ^ m * 256 ^ (k + 1) = 256 ^ (k + 1 + m) := by rw [← pow_add, add_comm]
  have h7 : 256 ^ (k + 1) = 256 * 256 ^ k := by rw [pow_succ, mul_comm]
  unfold setByte
  rw [← h6]
  rw [add_mul, one_mul] at h5
  omega

/-- Byte `j` after byte `k` is replaced. -/
theorem byteOf_setByte (v k d j : Nat) : byteOf (setByte v k d) j = if j = k then d % 256 else byteOf v j := by
  have hp : 0 < 256 ^ k := by positivity
  have hm : v % 256 ^ k < 256 ^ k := Nat.mod_lt _ hp
  have hk : setByte v k d = v % 256 ^ k + 256 ^ k * (d % 256 + 256 * (v / 256 ^ (k + 1))) := by
    unfold setByte; rw [pow_succ]; ring
  have hlow : setByte v k d % 256 ^ k = v % 256 ^ k := by
    rw [hk, Nat.add_mul_mod_self_left, Nat.mod_mod]
  have hhigh : setByte v k d / 256 ^ k = d % 256 + 256 * (v / 256 ^ (k + 1)) := by
    rw [hk, Nat.add_mul_div_left _ _ hp, Nat.div_eq_of_lt hm, zero_add]
  have low (u : Nat) (h : j < k) : byteOf u j = byteOf (u % 256 ^ k) j := by
    obtain ⟨m, rfl⟩ : ∃ m, k = j + 1 + m := ⟨k - (j + 1), by omega⟩
    unfold byteOf
    rw [← Nat.mod_mul_right_div_self, ← Nat.mod_mul_right_div_self, ← pow_succ,
      Nat.mod_mod_of_dvd _ (pow_dvd_pow 256 (Nat.le_add_right _ _))]
  have high (u : Nat) (h : k < j) : byteOf u j = byteOf (u / 256 ^ k / 256) (j - k - 1) := by
    obtain ⟨m, rfl⟩ : ∃ m, j = k + 1 + m := ⟨j - (k + 1), by omega⟩
    unfold byteOf
    have : k + 1 + m - k - 1 = m := by omega
    rw [this, Nat.div_div_eq_div_mul, Nat.div_div_eq_div_mul, ← mul_assoc, ← pow_succ, ← pow_add]
  rcases lt_trichotomy j k with h | h | h
  · rw [if_neg (by omega), low _ h, hlow, ← low v h]
  · subst h
    rw [if_pos rfl]
    unfold byteOf
    rw [hhigh]; omega
  · rw [if_neg (by omega), high _ h, hhigh, high v h]
    congr 1
    rw [Nat.div_div_eq_div_mul, ← pow_succ]; omega

/-- A window byte write keeps the storage form. -/
theorem writeByte_wf {f : FixedInt} (h : f.wf) (j d : Nat) : (writeByte f j d).wf := by
  unfold writeByte
  split
  · exact setByte_lt h ‹_›
  · exact h

/-- A window write keeps the storage form. -/
theorem writeLanes_wf {f : FixedInt} (h : f.wf) (j v n : Nat) : (writeLanes f j v n).wf := by
  induction n with
  | zero => exact h
  | succ n ih => exact writeByte_wf ih _ _

/-- A window write touches the registers only, and of these only the one whose slot it is in. -/
theorem writeWindow_reg_other (s : State) (off n : Nat) (v : Word) {q : Reg} (h : q ≠ windowReg off) :
    (writeWindow s off n v).reg q = s.reg q := by
  have : (windowReg off).val ≠ q.val := fun e => h (Fin.ext e.symm)
  simp [writeWindow, State.reg, this]

theorem writeWindow_reg_self (s : State) (off n : Nat) (v : Word) :
    (writeWindow s off n v).reg (windowReg off) =
      writeLanes (s.reg (windowReg off)) (windowByte off) v.toNat n := by
  simp [writeWindow, State.reg]

/-! ### Digits and bytes (00_scope.md R12) -/

/-- A digit is a nibble of its byte: the low one for an even position, the high one for an odd. -/
theorem digit_is_nibble (v j : Nat) : digit v j = byteOf v (j / 2) / 16 ^ (j % 2) % 16 := by
  have h256 : (256 : Nat) = 16 ^ 2 := by norm_num
  unfold digit byteOf
  rw [h256, ← pow_mul]
  rcases Nat.even_or_odd' j with ⟨m, rfl | rfl⟩
  · have h1 : 2 * m / 2 = m := by omega
    have h2 : 2 * m % 2 = 0 := by omega
    rw [h1, h2, pow_zero, Nat.div_one]; omega
  · have h1 : (2 * m + 1) / 2 = m := by omega
    have h2 : (2 * m + 1) % 2 = 1 := by omega
    rw [h1, h2, pow_succ, ← Nat.div_div_eq_div_mul]; omega

end Sys2Proof.Machine
end

