-- ==== Sys2Proof/Laws/Step.lean ====
section
/-! SUPPORT. Once, everything a host access, an event and a step can do: `perform_effect` and `step_effect` are the
inversion lemmas that later proofs cite instead of unfolding the step. -/

namespace Sys2Proof.Machine

open Sys2Proof

/-! ### Commands -/

/-- Every command's meaning is one issue of its own word. -/
theorem exec_is_issue (i : Instr) (s : State) : ∃ c, exec i s = issue i s c := by
  cases i <;> exact ⟨_, rfl⟩

/-- Every command answers a next state. -/
theorem exec_next (i : Instr) (s : State) : ∃ c, exec i s = .next (s.issueWord (encode i) c) :=
  exec_is_issue i s

/-- A CMD write issues some word with some outcome of its checks. -/
theorem runWord_next (w : Word) (s : State) : ∃ x c, runWord w s = .next (s.issueWord x c) := by
  unfold runWord
  split
  · obtain ⟨c, h⟩ := exec_next _ s
    exact ⟨_, c, h⟩
  · exact ⟨_, _, rfl⟩

theorem runWord_of_ok {w : Word} {i : Instr} (h : decode w = .ok i) (s : State) : runWord w s = exec i s := by
  simp [runWord, h]

theorem runWord_of_error {w : Word} {e : CmdError} (h : decode w = .error e) (s : State) :
    runWord w s = .next (s.issueWord w (.error e)) := by
  simp [runWord, h, rejectWord]

/-! ### Events -/

/-- What an event can do to a state `s`. -/
inductive Effect (s : State) : Event → State → Prop where
  /-- A performed read only answers. -/
  | readDone (e : Event) (d : Word) : Effect s e { s with hostRead := some d }
  /-- A refused read answers 0 and sets ACCERR. -/
  | readRefused (e : Event) : Effect s e { s.refuseAccess with hostRead := some 0#32 }
  /-- A refused write sets ACCERR. -/
  | writeRefused (e : Event) : Effect s e s.refuseAccess
  /-- A CMD write while idle issues a word. -/
  | issued (e : Event) (x : Word) (c : Except CmdError Latched) (idle : s.busy = false) : Effect s e (s.issueWord x c)
  /-- A CTRL write. -/
  | ctrlSet (e : Event) (v : Word) : Effect s e (s.setCtrl v)
  /-- A STATUS write. -/
  | acknowledged (e : Event) (v : Word) : Effect s e (s.acknowledge v)
  /-- A write that the map ignores. -/
  | ignored (e : Event) : Effect s e s
  /-- A window write while idle. -/
  | windowWritten (e : Event) (off n : Nat) (v : Word) (idle : s.busy = false) (low : 0x1000 ≤ off)
      (high : off < 0x2000) (he : e = .mmioWrite off n v ∨ e = .memWrite (Config.base + off) n v) :
      Effect s e (writeWindow s off n v)
  /-- An engine step. -/
  | engineStepped : Effect s .engine s.engineStep
  /-- A hardware reset. -/
  | wasReset : Effect s .reset s.hardReset

theorem hostReadAt_next (s : State) (e : Event) (off n : Nat) (h : off < 0x2000) :
    ∃ t, hostReadAt s off n = .next t ∧ Effect s e t := by
  refine ⟨s.mmioRead off n, by simp [hostReadAt, Config.blockSize, h], ?_⟩
  unfold State.mmioRead
  split
  · exact .readRefused e
  · exact .readDone e _

theorem hostWriteAt_next (s : State) (e : Event) (off n : Nat) (v : Word) (h : off < 0x2000)
    (he : e = .mmioWrite off n v ∨ e = .memWrite (Config.base + off) n v) :
    ∃ t, hostWriteAt runWord s off n v = .next t ∧ Effect s e t := by
  have hw : hostWriteAt runWord s off n v = mmioWrite runWord s off n v := by
    simp [hostWriteAt, Config.blockSize, h]
  rw [hw]
  unfold mmioWrite
  split
  · exact ⟨_, rfl, .writeRefused e⟩
  · rename_i hr
    split
    · rename_i hc
      obtain ⟨x, c, hx⟩ := runWord_next v s
      refine ⟨_, hx, .issued e x c ?_⟩
      cases hb : s.busy with
      | false => rfl
      | true => simp [Machine.writeRefused, hb, hc] at hr
    · refine ⟨_, rfl, ?_⟩
      unfold State.store
      split
      · unfold writeControl
        split
        · exact .ctrlSet e v
        · split
          · exact .acknowledged e v
          · exact .ignored e
      · rename_i hi
        refine .windowWritten e off n v ?_ ?_ h he
        · cases hb : s.busy with
          | false => rfl
          | true => simp [Machine.writeRefused, hb, hi] at hr
        · exact Nat.le_of_not_lt fun hc => hi (decide_eq_true hc)

theorem blockOffset_some {addr off : Nat} (h : blockOffset addr = some off) :
    off < 0x2000 ∧ addr = Config.base + off := by
  unfold blockOffset at h
  split at h
  · rename_i hb
    have := Option.some.inj h
    simp only [Config.blockSize] at hb
    omega
  · exact absurd h (by simp)

theorem blockOffset_base {off : Nat} (h : off < 0x2000) : blockOffset (Config.base + off) = some off := by
  simp [blockOffset, Config.blockSize, h]

/-- All that an event can do: one of the effects, or the fault of an access outside the block. -/
theorem perform_effect (s : State) (e : Event) :
    perform runWord s e = .fault .outsideBlock ∨ ∃ t, perform runWord s e = .next t ∧ Effect s e t := by
  cases e with
  | mmioRead off n =>
    by_cases h : off < 0x2000
    · exact .inr (hostReadAt_next s _ off n h)
    · exact .inl (by simp [perform, hostReadAt, Config.blockSize, h])
  | mmioWrite off n v =>
    by_cases h : off < 0x2000
    · exact .inr (hostWriteAt_next s _ off n v h (.inl rfl))
    · exact .inl (by simp [perform, hostWriteAt, Config.blockSize, h])
  | memRead addr n =>
    cases hb : blockOffset addr with
    | none => exact .inl (by simp [perform, hb])
    | some off =>
      obtain ⟨t, h, ht⟩ := hostReadAt_next s (.memRead addr n) off n (blockOffset_some hb).1
      exact .inr ⟨t, by simp [perform, hb, h], ht⟩
  | memWrite addr n v =>
    cases hb : blockOffset addr with
    | none => exact .inl (by simp [perform, hb])
    | some off =>
      obtain ⟨hlt, rfl⟩ := blockOffset_some hb
      obtain ⟨t, h, ht⟩ := hostWriteAt_next s (.memWrite (Config.base + off) n v) off n v hlt (.inr rfl)
      exact .inr ⟨t, by simp [perform, hb, h], ht⟩
  | engine => exact .inr ⟨_, rfl, .engineStepped⟩
  | reset => exact .inr ⟨_, rfl, .wasReset⟩

/-! ### Steps -/

theorem step_of_nil {s : State} (h : s.schedule = []) : step s = .next s.engineStep := by
  simp [step, stepOnce, h]

theorem step_of_cons {s : State} {e : Event} {rest : List Event} (h : s.schedule = e :: rest) :
    step s = perform runWord { s with schedule := rest } e := by
  simp [step, stepOnce, h]

/-- All that a step that answers a next state can do. -/
theorem step_effect {s t : State} (h : step s = .next t) :
    (s.schedule = [] ∧ t = s.engineStep) ∨
    ∃ e rest, s.schedule = e :: rest ∧ Effect { s with schedule := rest } e t := by
  cases hs : s.schedule with
  | nil =>
    rw [step_of_nil hs] at h
    injection h with h
    exact .inl ⟨rfl, h.symm⟩
  | cons e rest =>
    rw [step_of_cons hs] at h
    rcases perform_effect { s with schedule := rest } e with hf | ⟨u, hu, he⟩
    · rw [hf] at h; cases h
    · rw [hu] at h
      injection h with h
      exact .inr ⟨e, rest, rfl, h ▸ he⟩

end Sys2Proof.Machine
end

