-- ==== Sys2Proof/Tests/Slice0.lean ====
section
/-! SUPPORT. Tests of the model against words and values written out from the spec (30_encoding.md and
95_test_vectors.md, whose row each test names), and for every obligation that has hypotheses a concrete state and
operands that meet all of them, at the ends of the ranges of its clauses. -/

namespace Sys2Proof.Tests

open Sys2Proof Sys2Proof.Machine

/-! ### The helpers -/

/-- An engine as after reset with WMAX = 32 (the convention of 95_test_vectors.md), with these registers and events. -/
def engine (regs : List (Reg × FixedInt)) (schedule : List Event) : State :=
  { State.resetFor 32#8 with regs := writeRegs (State.resetFor 32#8).regs regs, schedule := schedule }

/-- The state a step leads to, if any. -/
def nextOf : Result → Option State
  | .next t => some t
  | .fault _ => none
  | .refused _ => none

/-- What a command word latches when it passes its checks: what the commit writes to registers and to RESULT, and the
progress events. -/
def latchedBy (regs : List (Reg × FixedInt)) (w : Word) : Option (List (Reg × FixedInt) × Option Word × List Nat) :=
  match nextOf (step (engine regs [cmdEvent w])) with
  | some t =>
    match t.seq with
    | .exec l => some (l.writes, l.result, l.pending)
    | .idle => none
  | none => none

/-- STATUS after a command word is written. -/
def statusAfter (regs : List (Reg × FixedInt)) (w : Word) : Option Word :=
  (nextOf (step (engine regs [cmdEvent w]))).map statusWord

/-- The data of the host's read, and STATUS after it. -/
def readBack (s : State) (e : Event) : Option (Option Word × Word) :=
  (nextOf (step { s with schedule := [e] })).map fun t => (t.hostRead, statusWord t)

/-- Vector VB1: `MUL r0, r1` in EXEC, five events pending. -/
def multiplication : Latched := ⟨.mul 0 1, [⟨1#8, 0x12⟩, ⟨1#8, 0x23⟩], [(0, ⟨1#8, 0x76⟩)], none, [2, 2, 1, 1, 1]⟩

/-- An engine with that command in EXEC. -/
def busyEngine (schedule : List Event) : State :=
  { engine [(0, ⟨1#8, 0x12⟩), (1, ⟨1#8, 0x23⟩)] schedule with seq := .exec multiplication }

/-- Four one-byte registers: 5, 6, 23, and 0. -/
def small : List (Reg × FixedInt) := [(0, ⟨1#8, 5⟩), (1, ⟨1#8, 6⟩), (2, ⟨1#8, 23⟩), (3, ⟨1#8, 0⟩)]

/-! ### Decoding: words written out from 30_encoding.md R105 and R108 -/

/-- 00010000 0000 0000 0000 0000 00000001 (R115). -/
theorem test_decode_create : decode 0x10000001#32 = .ok (.create 0 16) := by decide
/-- 00000010 00000101 0000 0011 00000010 (R115). -/
theorem test_decode_small : decode 0x02050302#32 = .ok (.small 3 5 2) := by decide
/-- 00000100 0000 0000 0001 0010 00000011 (VC11). -/
theorem test_decode_widen : decode 0x04001203#32 = .ok (.widen 2 1 4) := by decide
/-- 00000000 0000 0000 0001 1110 00000100. -/
theorem test_decode_assign : decode 0x00001E04#32 = .ok (.assign 14 1) := by decide
/-- 00000000 0000 0000 0000 0010 00000101 (VC19). -/
theorem test_decode_clear : decode 0x00000205#32 = .ok (.clear 2) := by decide
/-- 00000000 0000 0000 0001 0000 00001000 (VK1). -/
theorem test_decode_eq : decode 0x00001008#32 = .ok (.eq 0 1) := by decide
/-- 00000000 0000 0000 0000 1111 00001001. -/
theorem test_decode_nz : decode 0x00000F09#32 = .ok (.nz 15) := by decide
/-- 00000000 0000 0000 0000 0001 00001010 (VK8). -/
theorem test_decode_gt : decode 0x0000010A#32 = .ok (.gt 1 0) := by decide
/-- 00000000 0000 0000 0001 0000 00001011 (VK12). -/
theorem test_decode_ge : decode 0x0000100B#32 = .ok (.ge 0 1) := by decide
/-- 00000000 0000 0000 0000 1000 00001100. -/
theorem test_decode_sdc : decode 0x0000080C#32 = .ok (.sdc 8) := by decide
/-- 00000000 0000 0000 0000 0111 00001101. -/
theorem test_decode_even : decode 0x0000070D#32 = .ok (.even 7) := by decide
/-- 11111111 0000 0000 0000 0100 00010000 (VA5). -/
theorem test_decode_shl : decode 0xFF000410#32 = .ok (.shl 4 255) := by decide
/-- 00000000 0000 0000 0010 0001 00010001 (R115). -/
theorem test_decode_add : decode 0x00002111#32 = .ok (.add 1 2) := by decide
/-- 00000000 0000 0000 0001 0000 00010010 (X9). -/
theorem test_decode_sub : decode 0x00001012#32 = .ok (.sub 0 1) := by decide
/-- 00000000 0000 0000 0001 0000 00010011 (VA15). -/
theorem test_decode_mul : decode 0x00001013#32 = .ok (.mul 0 1) := by decide
/-- 00000000 0011 0010 0001 0000 00010100 (R115). -/
theorem test_decode_divrem : decode 0x00321014#32 = .ok (.divrem 0 1 2 3) := by decide
/-- 00000000 0000 0000 0011 0010 00010101 (program P2). -/
theorem test_decode_div : decode 0x00003215#32 = .ok (.div 2 3) := by decide
/-- 00000000 0000 0000 0011 0010 00010110 (program P2). -/
theorem test_decode_mod : decode 0x00003216#32 = .ok (.mod 2 3) := by decide
/-- 00000000 0000 0111 0110 0101 00011000 (R115). -/
theorem test_decode_mulmod : decode 0x00076518#32 = .ok (.mulmod 5 6 7) := by decide
/-- 00000000 0011 0010 0100 0101 00011001 (program P3). -/
theorem test_decode_powmod : decode 0x00324519#32 = .ok (.powmod 5 4 2 3) := by decide

/-- VE1 to VE5, and VE9, where the opcode error comes before the reserved bit. -/
theorem test_decode_illegal : decode 0x00000000#32 = .error .illegalOpcode ∧ decode 0x00000006#32 = .error .illegalOpcode ∧
    decode 0x00000017#32 = .error .illegalOpcode ∧ decode 0x000000FF#32 = .error .illegalOpcode ∧
    decode 0x0000001A#32 = .error .illegalOpcode ∧ decode 0x000001FF#32 = .error .illegalOpcode := by decide

/-- VC6, VA11, VE6, VE7, VE8, VE10. -/
theorem test_decode_reserved : decode 0x10001001#32 = .error .reservedField ∧ decode 0x01001011#32 = .error .reservedField ∧
    decode 0x00101011#32 = .error .reservedField ∧ decode 0x00001010#32 = .error .reservedField ∧
    decode 0x01321019#32 = .error .reservedField ∧ decode 0x00001105#32 = .error .reservedField := by decide

/-- The table's numbering: a 32-bit word of bit 0 first (30_encoding.md R101). -/
theorem test_decode_table_word : decodeTableWord 32 0x00002111 = some (.add 1 2) ∧ decodeTableWord 32 0 = none := by decide

/-- The first step from reset with a word placed issues it: `CREATE r0, 0` fails with code 3 (VC4). -/
theorem test_fetch_word : (nextOf (step (State.reset.withFetchWord 32 0x00000001))).map (fun t => t.status.errcode) =
    some 3#8 := by decide

/-! ### Well-formedness, and the assembler -/

/-- Each check of `Instr.wellFormed` refuses an ill-formed command: width 0, width above WMAX, and one register for
DIVREM's two results. -/
theorem test_wellFormed_refuses :
    Instr.wellFormed 32#8 (.create 0 0#8) = false ∧ Instr.wellFormed 32#8 (.create 0 33#8) = false ∧
    Instr.wellFormed 32#8 (.small 0 7#8 0#8) = false ∧ Instr.wellFormed 32#8 (.widen 0 1 33#8) = false ∧
    Instr.wellFormed 32#8 (.divrem 4 4 2 3) = false := by decide

/-- The ends of the legal range of K, and the one condition on DIVREM. -/
theorem test_wellFormed_accepts :
    Instr.wellFormed 32#8 (.create 0 1#8) = true ∧ Instr.wellFormed 32#8 (.widen 0 0 32#8) = true ∧
    Instr.wellFormed 32#8 (.divrem 2 3 2 3) = true ∧ Instr.wellFormed 32#8 (.shl 0 255#8) = true := by decide

/-- 30_encoding.md R112, R113. -/
theorem test_assembler : asm (.small 3 5 2) = "SMALL r3, 5, 2" ∧ asm (expandPseudo (.lt 1 2)) = "GT r2, r1" := by decide +kernel

/-! ### The commands: one issue step each, at most two tests per command -/

theorem test_create_VC2 : latchedBy [(0, ⟨2#8, 0xBEEF⟩)] 0x01000001#32 = some ([(0, ⟨1#8, 0⟩)], none, []) := by decide
theorem test_create_VC5 : statusAfter [] 0x21000001#32 = some 0x0306#32 := by decide
theorem test_small_VC8 : latchedBy [] 0x01FF0102#32 = some ([(1, ⟨1#8, 0xFF⟩)], none, []) := by decide
theorem test_small_VC10 : statusAfter [] 0x00070102#32 = some 0x0306#32 := by decide
theorem test_widen_VC12 : latchedBy [(1, ⟨2#8, 0x1234⟩)] 0x01001203#32 = some ([(2, ⟨1#8, 0x34⟩)], none, []) := by decide
theorem test_widen_VC15 : statusAfter [] 0x00001203#32 = some 0x0306#32 := by decide
theorem test_assign_VC16 : latchedBy [(0, ⟨1#8, 0⟩), (1, ⟨2#8, 0x1234⟩)] 0x00001004#32 =
    some ([(0, ⟨1#8, 0x34⟩)], none, []) := by decide
theorem test_assign_VC18 : statusAfter [(1, ⟨2#8, 0x1234⟩)] 0x00001004#32 = some 0x0406#32 := by decide
theorem test_clear_VC19 : latchedBy [(2, ⟨4#8, 0x1234⟩)] 0x00000205#32 = some ([(2, ⟨4#8, 0⟩)], none, []) := by decide
theorem test_clear_VC20 : statusAfter [] 0x00000205#32 = some 0x0406#32 := by decide
theorem test_eq_VK2 : latchedBy [(0, ⟨2#8, 0xFF⟩), (1, ⟨2#8, 0xFE⟩)] 0x00001008#32 = some ([], some 0#32, []) := by decide
theorem test_eq_VK4 : statusAfter [(0, ⟨2#8, 0xFF⟩), (1, ⟨1#8, 0xFF⟩)] 0x00001008#32 = some 0x0506#32 := by decide
theorem test_nz_VK5 : latchedBy [(0, ⟨2#8, 0x8000⟩)] 0x00000009#32 = some ([], some 1#32, []) := by decide
theorem test_nz_VK6 : latchedBy [(0, ⟨2#8, 0⟩)] 0x00000009#32 = some ([], some 0#32, []) := by decide
theorem test_gt_VK7 : latchedBy [(0, ⟨2#8, 0x1000⟩), (1, ⟨2#8, 0x0FFF⟩)] 0x0000100A#32 = some ([], some 1#32, []) := by decide
theorem test_gt_VK9 : latchedBy [(0, ⟨2#8, 0x1234⟩)] 0x0000000A#32 = some ([], some 0#32, []) := by decide
theorem test_ge_VK11 : latchedBy [(0, ⟨1#8, 0x7F⟩)] 0x0000000B#32 = some ([], some 1#32, []) := by decide
theorem test_ge_VK12 : latchedBy [(0, ⟨1#8, 0x7E⟩), (1, ⟨1#8, 0x7F⟩)] 0x0000100B#32 = some ([], some 0#32, []) := by decide
theorem test_sdc_VK14 : latchedBy [(0, ⟨2#8, 0x0123⟩)] 0x0000000C#32 = some ([], some 3#32, []) := by decide
theorem test_sdc_VK16 : latchedBy [(0, ⟨1#8, 0x10⟩)] 0x0000000C#32 = some ([], some 2#32, []) := by decide
theorem test_even_VK19 : latchedBy [(0, ⟨2#8, 0x0130⟩)] 0x0000000D#32 = some ([], some 1#32, []) := by decide
theorem test_even_VK20 : latchedBy [(0, ⟨2#8, 0x0131⟩)] 0x0000000D#32 = some ([], some 0#32, []) := by decide
theorem test_shl_VA2 : latchedBy [(4, ⟨2#8, 0x0123⟩)] 0x03000410#32 = some ([(4, ⟨2#8, 0x3000⟩)], none, []) := by decide
theorem test_shl_VA4 : latchedBy [(4, ⟨2#8, 0x0123⟩)] 0x04000410#32 = some ([(4, ⟨2#8, 0⟩)], none, []) := by decide
theorem test_add_VA8 : latchedBy [(0, ⟨2#8, 0x0FFF⟩), (1, ⟨2#8, 1⟩)] 0x00001011#32 =
    some ([(0, ⟨2#8, 0x1000⟩)], none, []) := by decide
theorem test_add_VA9 : latchedBy [(0, ⟨2#8, 0x8001⟩)] 0x00000011#32 = some ([(0, ⟨2#8, 2⟩)], none, []) := by decide
theorem test_sub_VA12 : latchedBy [(0, ⟨1#8, 0⟩), (1, ⟨1#8, 1⟩)] 0x00001012#32 = some ([(0, ⟨1#8, 0xFF⟩)], none, []) := by decide
theorem test_sub_VA13 : latchedBy [(0, ⟨2#8, 0x1000⟩), (1, ⟨2#8, 1⟩)] 0x00001012#32 =
    some ([(0, ⟨2#8, 0x0FFF⟩)], none, []) := by decide
theorem test_mul_VA15 : latchedBy [(0, ⟨1#8, 0x12⟩), (1, ⟨1#8, 0x23⟩)] 0x00001013#32 =
    some ([(0, ⟨1#8, 0x76⟩)], none, [2, 2, 1, 1, 1]) := by decide
theorem test_mul_VA17 : latchedBy [(0, ⟨1#8, 0⟩), (1, ⟨1#8, 0x21⟩)] 0x00001013#32 =
    some ([(0, ⟨1#8, 0⟩)], none, [2, 2, 1]) := by decide
theorem test_divrem_VD8 : latchedBy [(2, ⟨2#8, 0x64⟩), (3, ⟨2#8, 7⟩)] 0x00323214#32 =
    some ([(2, ⟨2#8, 0x0E⟩), (3, ⟨2#8, 2⟩)], none, []) := by decide
theorem test_divrem_VD10 : statusAfter [(2, ⟨2#8, 0x1000⟩), (3, ⟨2#8, 0⟩)] 0x00320014#32 = some 0x0606#32 := by decide
theorem test_div_VD13 : latchedBy [(0, ⟨1#8, 0xFF⟩), (1, ⟨1#8, 2⟩)] 0x00001015#32 = some ([(0, ⟨1#8, 0x7F⟩)], none, []) := by decide
theorem test_div_VD15 : statusAfter [(0, ⟨1#8, 0xFF⟩), (1, ⟨1#8, 0⟩)] 0x00001015#32 = some 0x0706#32 := by decide
theorem test_mod_VD16 : latchedBy [(0, ⟨1#8, 0xFF⟩), (1, ⟨1#8, 0x10⟩)] 0x00001016#32 = some ([(0, ⟨1#8, 0x0F⟩)], none, []) := by decide
theorem test_mod_VD17 : latchedBy [(0, ⟨1#8, 0x0F⟩), (1, ⟨1#8, 0x10⟩)] 0x00001016#32 = some ([(0, ⟨1#8, 0x0F⟩)], none, []) := by decide
theorem test_mulmod_VM1_wide : latchedBy [(0, ⟨1#8, 0xFF⟩), (1, ⟨1#8, 0xFF⟩), (2, ⟨1#8, 0xFB⟩)] 0x00021018#32 =
    some ([(0, ⟨1#8, 0x10⟩)], none, List.replicate 15 2 ++ List.replicate 15 1) := by decide +kernel
theorem test_mulmod_VM2_narrow : latchedBy [(0, ⟨1#8, 3⟩), (1, ⟨1#8, 4⟩), (2, ⟨1#8, 5⟩)] 0x00021018#32 =
    some ([(0, ⟨1#8, 2⟩)], none, [1, 1, 1, 1]) := by decide
theorem test_powmod_VM10 : latchedBy [(1, ⟨1#8, 0x13⟩), (2, ⟨1#8, 6⟩), (3, ⟨1#8, 0x17⟩)] 0x00321019#32 =
    some ([(0, ⟨1#8, 2⟩)], none, [2, 1, 1, 1, 2, 2, 1, 1, 1]) := by decide +kernel
theorem test_powmod_VM13 : latchedBy [(1, ⟨1#8, 7⟩), (2, ⟨1#8, 0⟩), (3, ⟨1#8, 1⟩)] 0x00321019#32 =
    some ([(0, ⟨1#8, 1⟩)], none, []) := by decide

/-! ### The command cycle, the host's accesses, the interrupt, reset -/

/-- VB5's last step: with no event left the engine commits R0, sets DONE and goes idle. -/
theorem test_commit : (nextOf (step { busyEngine [.engine] with seq := .exec { multiplication with pending := [] } })).map
    (fun t => (t.reg 0, statusWord t)) = some (⟨1#8, 0x76⟩, 0x0002#32) := by decide

/-- An event of VB1's MUL: PROGRESS holds it, PROG is set, nothing is committed. -/
theorem test_event : (nextOf (step (busyEngine [.engine]))).map (fun t => (t.reg 0, t.progress, statusWord t)) =
    some (⟨1#8, 0x12⟩, 2#16, 0x0009#32) := by decide

/-- VB2 and VB6: while BUSY a window read and a CMD write are refused. -/
theorem test_busy_refuses : readBack (busyEngine []) (.mmioRead 0x1000 1) = some (some 0#32, 0x0011#32) ∧
    (nextOf (step (busyEngine [cmdEvent 0x01010502#32]))).map (fun t => (t.cmd, t.reg 5, statusWord t)) =
      some (0#32, ⟨0#8, 0⟩, 0x0011#32) := by decide

/-- VW1: CFG for WMAX = 32. -/
theorem test_cfg : readBack (engine [] []) (.mmioRead 0x0000 4) = some (some 0x00011020#32, 0#32) := by decide

/-- VW2: the lanes of the window. -/
theorem test_window_read : readBack (engine [(0, ⟨4#8, 0x12345678⟩)] []) (.mmioRead 0x1002 2) = some (some 0x1234#32, 0#32) ∧
    readBack (engine [(0, ⟨4#8, 0x12345678⟩)] []) (.mmioRead 0x1001 1) = some (some 0x56#32, 0#32) := by decide

/-- VW4: bytes beyond the width are dropped. -/
theorem test_window_write : (nextOf (step (engine [(0, ⟨2#8, 0⟩)] [.mmioWrite 0x1000 4 0xAABBCCDD#32]))).map
    (fun t => t.reg 0) = some ⟨2#8, 0xCCDD⟩ := by decide

/-- VW6 and VW8: misaligned and narrow accesses are refused. -/
theorem test_refused_accesses : readBack (engine [(0, ⟨4#8, 0x12345678⟩)] []) (.mmioRead 0x1001 2) = some (some 0#32, 0x0010#32) ∧
    readBack (engine [] []) (.mmioRead 0x0008 1) = some (some 0#32, 0x0010#32) := by decide

/-- VW10: CTRL keeps three bits. -/
theorem test_ctrl : (nextOf (step (engine [] [.mmioWrite 0x0004 4 0xFFFFFFFF#32]))).map ctrlWord = some 7#32 := by decide

/-- VW11's third write: ERR goes with ERRCODE, ACCERR stays. -/
theorem test_status_clear : (nextOf (step { engine [] [.mmioWrite 0x0008 4 4#32] with
    status := ⟨false, true, false, true, 7#8⟩ })).map statusWord = some 0x0010#32 := by decide

/-- VI4 and VI5: ACCERR is gated by ERRIE alone. -/
theorem test_irq :
    State.irq { engine [] [] with status := ⟨false, false, false, true, 0#8⟩, ctrl := ⟨false, true, false⟩ } = true ∧
    State.irq { engine [] [] with status := ⟨false, false, false, true, 0#8⟩, ctrl := ⟨true, false, true⟩ } = false := by decide

/-- VR1: reset in mid-command commits nothing and clears every register. -/
theorem test_reset : nextOf (step { busyEngine [.reset] with ctrl := ⟨true, true, true⟩, progress := 2#16 }) =
    some (State.resetFor 32#8) := by decide +kernel

/-- An access past the end of the block is none of the engine's (20_memory.md R61). -/
theorem test_outside_block : step (engine [] [.mmioRead 0x2000 4]) = .fault .outsideBlock := by rfl

/-! ### Witnesses: what the hypotheses of the obligations ask for exists -/

theorem witness_EncodeOfDecodeIsTheWord : decode 0x00FFFF19#32 = .ok (.powmod 15 15 15 15) ∧
    decode 0x01000001#32 = .ok (.create 0 1) := by decide

/-- An idle engine; the ends of the last illegal range and a lone illegal OP; the first and the last legal OP. -/
theorem witness_IllegalOpcodesFailAtIssue : (engine [] []).busy = false ∧
    (let op := (0x00#32).toNat % 256;
      op = 0x00 ∨ op = 0x06 ∨ op = 0x07 ∨ op = 0x0E ∨ op = 0x0F ∨ op = 0x17 ∨ 0x1A ≤ op) ∧
    (let op := (0x1A#32).toNat % 256;
      op = 0x00 ∨ op = 0x06 ∨ op = 0x07 ∨ op = 0x0E ∨ op = 0x0F ∨ op = 0x17 ∨ 0x1A ≤ op) ∧
    (let op := (0xFF#32).toNat % 256;
      op = 0x00 ∨ op = 0x06 ∨ op = 0x07 ∨ op = 0x0E ∨ op = 0x0F ∨ op = 0x17 ∨ 0x1A ≤ op) ∧
    (let op := (0x01#32).toNat % 256;
      ¬(op = 0x00 ∨ op = 0x06 ∨ op = 0x07 ∨ op = 0x0E ∨ op = 0x0F ∨ op = 0x17 ∨ 0x1A ≤ op)) ∧
    (let op := (0x19#32).toNat % 256;
      ¬(op = 0x00 ∨ op = 0x06 ∨ op = 0x07 ∨ op = 0x0E ∨ op = 0x0F ∨ op = 0x17 ∨ 0x1A ≤ op)) := by decide

/-- One must-be-zero bit set at either end of a word, and a word that sets none. -/
theorem witness_ReservedBitsFailAtIssue : (engine [] []).busy = false ∧
    rowMask ((0x80000005#32).toNat % 256) = some 0xFFFFF0FF#32 ∧
    (0x80000005#32 &&& 0xFFFFF0FF#32).toNat ≠ (0x80000005#32).toNat % 256 ∧
    (0x00001005#32 &&& 0xFFFFF0FF#32).toNat ≠ (0x00001005#32).toNat % 256 ∧
    (0x00000F05#32 &&& 0xFFFFF0FF#32).toNat = (0x00000F05#32).toNat % 256 := by decide

theorem witness_CmdWriteRunsDecodedCommand : (engine [] []).busy = false ∧ decode 0x10000001#32 = .ok (.create 0 16) := by decide

/-- One idle engine and one busy one. -/
theorem witness_CmdRegisterKeepsLastIssuedWord : (engine [] []).busy = false ∧ (busyEngine []).busy = true := by decide

theorem witness_ExecWhileBusyChangesOnlyAccerr : (busyEngine []).busy = true := by decide

/-- For each check a command that fails it and no earlier one, and a command that fails none. -/
theorem witness_IssueReportsFirstFailedCheck :
    (engine small []).busy = false ∧
    checkFails (engine small []) (.create 0 33) 3 ∧
    (¬ checkFails (engine small []) (.nz 9) 3 ∧ checkFails (engine small []) (.nz 9) 4) ∧
    (¬ checkFails (engine ((4, ⟨2#8, 0⟩) :: small) []) (.eq 0 4) 3 ∧
      ¬ checkFails (engine ((4, ⟨2#8, 0⟩) :: small) []) (.eq 0 4) 4 ∧
      checkFails (engine ((4, ⟨2#8, 0⟩) :: small) []) (.eq 0 4) 5) ∧
    (¬ checkFails (engine small []) (.divrem 7 7 0 3) 3 ∧ ¬ checkFails (engine small []) (.divrem 7 7 0 3) 4 ∧
      ¬ checkFails (engine small []) (.divrem 7 7 0 3) 5 ∧ checkFails (engine small []) (.divrem 7 7 0 3) 6) ∧
    (¬ checkFails (engine small []) (.div 0 3) 3 ∧ ¬ checkFails (engine small []) (.div 0 3) 4 ∧
      ¬ checkFails (engine small []) (.div 0 3) 5 ∧ ¬ checkFails (engine small []) (.div 0 3) 6 ∧
      checkFails (engine small []) (.div 0 3) 7) ∧
    (¬ checkFails (engine small []) (.div 0 1) 3 ∧ ¬ checkFails (engine small []) (.div 0 1) 4 ∧
      ¬ checkFails (engine small []) (.div 0 1) 5 ∧ ¬ checkFails (engine small []) (.div 0 1) 6 ∧
      ¬ checkFails (engine small []) (.div 0 1) 7) := by
  simp only [checkFails, badWidthImmediate, readsOf, sameWidthOf, conflictingDestinations, divisorOf, Option.some.injEq,
    exists_eq_left']
  and_intros <;> decide

/-- K at 0, just above WMAX and at 255; an allocated operand for SHL. -/
theorem witness_WidthImmediateOutOfRangeFails : (engine small []).busy = false ∧
    (∀ k ∈ [0#8, 33#8, 255#8], k.toNat = 0 ∨ (engine small []).wmax.toNat < k.toNat) ∧
    ((engine small []).reg 0).width ≠ 0#8 := by decide

/-- ADD with B unallocated; WIDEN of an unallocated register with a legal K; a POWMOD whose destination alone is
unallocated. -/
theorem witness_ReadingUnallocatedRegisterFails : (engine small []).busy = false ∧
    (¬ badWidthImmediate (engine small []) (.add 0 9) ∧ ∃ r ∈ readsOf (.add 0 9), ((engine small []).reg r).width = 0#8) ∧
    (¬ badWidthImmediate (engine small []) (.widen 0 9 1) ∧
      ∃ r ∈ readsOf (.widen 0 9 1), ((engine small []).reg r).width = 0#8) ∧
    (∀ r ∈ readsOf (.powmod 9 0 1 2), ((engine small []).reg r).width ≠ 0#8) := by
  simp only [badWidthImmediate, readsOf]
  decide

/-- MULMOD with the modulus alone of another width. -/
theorem witness_OperandWidthsThatDifferFail :
    let s := engine [(0, ⟨1#8, 3⟩), (1, ⟨1#8, 4⟩), (2, ⟨2#8, 5⟩)] []
    s.busy = false ∧ (∀ r ∈ readsOf (.mulmod 0 1 2), (s.reg r).width ≠ 0#8) ∧
    ∃ r ∈ sameWidthOf (.mulmod 0 1 2), ∃ q ∈ sameWidthOf (.mulmod 0 1 2), (s.reg r).width ≠ (s.reg q).width := by
  decide

/-- VD10's shape, with the divisor 0; and a state in which code 6 is reported. -/
theorem witness_DivremWithEqualDestinationsFails :
    ((engine small []).busy = false ∧ ((engine small []).reg 0).width ≠ 0#8 ∧
      ((engine small []).reg 3).width = ((engine small []).reg 0).width) ∧
    exec (.divrem 7 7 0 3) (engine small []) = .next (failedIssue (engine small []) (encode (.divrem 7 7 0 3)) 0x06#8) :=
  ⟨by decide, rfl⟩

/-- A zero in R3 and allocated registers of its width. -/
theorem witness_ZeroDivisorFails : (engine small []).busy = false ∧ (7 : Reg) ≠ 8 ∧ ((engine small []).reg 0).width ≠ 0#8 ∧
    ((engine small []).reg 1).width = ((engine small []).reg 0).width ∧
    ((engine small []).reg 3).width = ((engine small []).reg 0).width ∧ ((engine small []).reg 3).val = 0 := by decide

theorem witness_EngineEmitsEventsThenCommits : (busyEngine []).seq = .exec multiplication := by decide

/-- Five engine steps with refused and performed accesses between them, then the sixth. -/
theorem witness_EveryInterleavingCommitsTheSameResult :
    let evs : List Event := [.mmioWrite 0x00C 4 0x01010502#32, .engine, .engine, .mmioRead 0x1000 1, .engine,
      .mmioWrite 0x1000 1 0x99#32, .engine, .mmioWrite 0x008 4 0x1F#32, .engine, .mmioRead 0x1FFF 1]
    let s := busyEngine (evs ++ .engine :: [.reset])
    s.seq = .exec multiplication ∧ s.schedule = evs ++ .engine :: [.reset] ∧
    evs.count .engine = multiplication.pending.length ∧ Event.reset ∉ evs ∧ ∀ e ∈ evs, InBlock e := by
  refine ⟨rfl, rfl, by decide, by decide, ?_⟩
  simp [InBlock]

/-- K at 1 and at WMAX. -/
theorem witness_CreateAndSmallMakeFixedInts : (engine [] []).busy = false ∧
    ∀ k ∈ [1#8, 32#8], 1 ≤ k.toNat ∧ k.toNat ≤ (engine [] []).wmax.toNat := by decide

/-- K at 1 and at WMAX, from an allocated source. -/
theorem witness_WidenCopiesAtNewWidth : (engine small []).busy = false ∧
    (∀ k ∈ [1#8, 32#8], 1 ≤ k.toNat ∧ k.toNat ≤ (engine small []).wmax.toNat) ∧
    ((engine small []).reg 0).width ≠ 0#8 := by decide

theorem witness_AssignAndClearKeepWidth : (engine small []).busy = false ∧ ((engine small []).reg 0).width ≠ 0#8 ∧
    ((engine small []).reg 1).width ≠ 0#8 := by decide

/-- Two allocated registers of one width, of which the second is not 0: the hypotheses of the comparisons, of ADD, SUB
and MUL, of DIV and MOD. -/
theorem witness_pair : (engine small []).busy = false ∧ ((engine small []).reg 0).width ≠ 0#8 ∧
    ((engine small []).reg 1).width = ((engine small []).reg 0).width ∧ ((engine small []).reg 1).val ≠ 0 := by decide

theorem witness_EqComparesValues : (engine small []).busy = false ∧ ((engine small []).reg 0).width ≠ 0#8 ∧
    ((engine small []).reg 1).width = ((engine small []).reg 0).width :=
  ⟨witness_pair.1, witness_pair.2.1, witness_pair.2.2.1⟩

theorem witness_NzAndEvenTestValue : (engine small []).busy = false ∧ ((engine small []).reg 0).width ≠ 0#8 :=
  ⟨witness_pair.1, witness_pair.2.1⟩

theorem witness_GtAndGeAreNumericOrder : (engine small []).busy = false ∧ ((engine small []).reg 0).width ≠ 0#8 ∧
    ((engine small []).reg 1).width = ((engine small []).reg 0).width := witness_EqComparesValues

theorem witness_SdcIsLeastDigitBound : (engine small []).busy = false ∧ ((engine small []).reg 0).width ≠ 0#8 :=
  witness_NzAndEvenTestValue

/-- The operand, and a digit index below and one at the shift count. -/
theorem witness_ShlShiftsDigits : (engine small []).busy = false ∧ ((engine small []).reg 0).width ≠ 0#8 ∧
    ∀ j ∈ [0, 1], j < 2 * ((engine small []).reg 0).width.toNat := by decide

theorem witness_AddIsSumModuloWidth : (engine small []).busy = false ∧ ((engine small []).reg 0).width ≠ 0#8 ∧
    ((engine small []).reg 1).width = ((engine small []).reg 0).width := witness_EqComparesValues

theorem witness_SubIsDifferenceModuloWidth : (engine small []).busy = false ∧ ((engine small []).reg 0).width ≠ 0#8 ∧
    ((engine small []).reg 1).width = ((engine small []).reg 0).width := witness_EqComparesValues

theorem witness_MulIsProductWithUnitEvents : (engine small []).busy = false ∧ ((engine small []).reg 0).width ≠ 0#8 ∧
    ((engine small []).reg 1).width = ((engine small []).reg 0).width := witness_EqComparesValues

/-- Destinations that are the sources. -/
theorem witness_DivremWritesQuotientAndRemainder : (engine small []).busy = false ∧
    ((engine small []).reg 0).width ≠ 0#8 ∧ ((engine small []).reg 1).width = ((engine small []).reg 0).width ∧
    (0 : Reg) ≠ 1 ∧ ((engine small []).reg 1).val ≠ 0 := by decide

theorem witness_DivAndModAreFloorDivision : (engine small []).busy = false ∧ ((engine small []).reg 0).width ≠ 0#8 ∧
    ((engine small []).reg 1).width = ((engine small []).reg 0).width ∧ ((engine small []).reg 1).val ≠ 0 := witness_pair

theorem witness_MulmodIsExactOnBothPaths : (engine small []).busy = false ∧ ((engine small []).reg 0).width ≠ 0#8 ∧
    ((engine small []).reg 1).width = ((engine small []).reg 0).width ∧
    ((engine small []).reg 2).width = ((engine small []).reg 0).width ∧ ((engine small []).reg 2).val ≠ 0 := by decide

/-- `POWMOD r9, r0, r1, r2` is `5^6 mod 23`. -/
theorem witness_PowmodIsModularPower : (engine small []).busy = false ∧ ((engine small []).reg 0).width ≠ 0#8 ∧
    ((engine small []).reg 1).width = ((engine small []).reg 0).width ∧
    ((engine small []).reg 2).width = ((engine small []).reg 0).width ∧ ((engine small []).reg 2).val ≠ 0 := by decide

/-- Two idle engines that differ in a register the command does not read, and in CTRL. -/
theorem witness_ResultsDependOnlyOnLatchedOperands :
    let s := engine small []
    let s' := { engine ((9, ⟨2#8, 0xBEEF⟩) :: small) [] with ctrl := ⟨true, true, true⟩ }
    s.busy = false ∧ s'.busy = false ∧ s'.wmax = s.wmax ∧ s'.reg 9 ≠ s.reg 9 ∧
    (∀ r ∈ readsOf (.add 0 1), s'.reg r = s.reg r) ∧
    exec (.add 0 1) s = .next (startedIssue s (encode (.add 0 1))
      ⟨.add 0 1, [⟨1#8, 5⟩, ⟨1#8, 6⟩], [(0, ⟨1#8, 11⟩)], none, []⟩) :=
  ⟨by decide, by decide, by decide, by decide, by decide, rfl⟩

theorem witness_CompareLawsHold : (engine small []).busy = false ∧ ((engine small []).reg 0).width ≠ 0#8 ∧
    ((engine small []).reg 1).width = ((engine small []).reg 0).width := witness_EqComparesValues

theorem witness_AddThenSubRestoresValue : (engine small []).busy = false ∧ (0 : Reg) ≠ 1 ∧
    ((engine small []).reg 0).width ≠ 0#8 ∧ ((engine small []).reg 1).width = ((engine small []).reg 0).width := by decide

/-- The textbook exchange of 44_modexp.md R229. -/
theorem witness_PowmodMakesExchangesAgree : (23 : Nat) ≠ 0 ∧ 1 ≤ 6 ∧ 1 ≤ 15 ∧ 5 < 256 ^ 2 ∧ 6 < 256 ^ 2 ∧ 15 < 256 ^ 2 ∧
    23 < 256 ^ 2 := by decide

theorem witness_WidthTagsKeptByOtherCommands : (engine small []).busy = false ∧ setsWidthTag (.add 0 1) = false ∧
    ∃ m, exec (.add 0 1) (engine small []) = .next m := ⟨by decide, by decide, _, rfl⟩

theorem witness_CfgIsAConstantIdentification : ∃ t, step (busyEngine [.engine]) = .next t := ⟨_, rfl⟩

/-- The ends of each range of reserved words, and every kind of read-only word. -/
theorem witness_ReservedAndReadOnlyWordsIgnoreWrites :
    (∀ off ∈ [0x018, 0x03C, 0x080, 0xFFC], ReservedWord off) ∧
    (∀ off ∈ [0x000, 0x010, 0x014, 0x040, 0x07C], ReadOnlyWord off) := by
  unfold ReservedWord ReadOnlyWord
  decide

/-- For (a) to (d) of 20_memory.md R74 an access each, at the ends of its range, and accesses that are none of them. -/
theorem witness_RefusedAccessesAreExactlyThese :
    (RefusedWrite (busyEngine []) 0x00C 4 ∧ RefusedWrite (busyEngine []) 0x1000 1 ∧ RefusedRead (busyEngine []) 0x1FFF 1) ∧
    (RefusedWrite (engine [] []) 0xFFF 1 ∧ RefusedRead (engine [] []) 0x002 4) ∧
    (RefusedWrite (engine [] []) 0x1FFE 4 ∧ RefusedRead (engine [] []) 0x1000 3) ∧
    (¬ RefusedWrite (engine [] []) 0x00C 4 ∧ ¬ RefusedRead (busyEngine []) 0xFFC 4 ∧ ¬ RefusedWrite (busyEngine []) 0x008 4 ∧
      ¬ RefusedRead (engine [] []) 0x1FFF 1 ∧ ¬ RefusedWrite (engine [] []) 0x1FFC 4) := by
  unfold RefusedWrite RefusedRead
  and_intros <;> decide

/-- The first and the last byte of a slot, and a register in the storage form. -/
theorem witness_WindowByteReadsWithinWidth : (engine small []).busy = false ∧ (0 < 256 ∧ 255 < 256) ∧
    (0 < ((engine small []).reg 0).width.toNat ∧ ¬ 1 < ((engine small []).reg 0).width.toNat) ∧
    ((engine small []).reg 0).Fits (engine small []).wmax ∧ (engine small []).wmax.toNat ≤ 32 := by
  unfold FixedInt.Fits
  decide

/-- The first and the last word and half word of a slot. -/
theorem witness_WindowWordsAreSlicesOfTheValue : (engine small []).busy = false ∧ (0 < 64 ∧ 63 < 64) ∧ (0 < 128 ∧ 127 < 128) := by
  decide

/-- Each width at the first and the last place of a slot. -/
theorem witness_WindowWriteStoresBytesWithinWidth : (engine small []).busy = false ∧
    ∀ p ∈ [(0, 1), (255, 1), (0, 2), (254, 2), (0, 4), (252, 4)],
      p.1 < 256 ∧ (p.2 = 1 ∨ p.2 = 2 ∨ p.2 = 4) ∧ p.1 % p.2 = 0 := by decide

theorem witness_BusAddressReachesOffset : 0 < 0x2000 ∧ 0x1FFF < 0x2000 := by decide

/-- An access at the first offset past the block; accesses at the last one in it, and a schedule with none left. -/
theorem witness_OnlyAccessesOutsideTheBlockStop :
    (∃ e rest, (engine [] [.mmioRead 0x2000 4]).schedule = e :: rest ∧ ¬ InBlock e) ∧
    (∀ e rest, (engine [] [.mmioRead 0x1FFF 1]).schedule = e :: rest → InBlock e) ∧
    (∀ e rest, (engine [] []).schedule = e :: rest → InBlock e) := by
  refine ⟨⟨_, _, rfl, by simp [InBlock]⟩, ?_, ?_⟩
  · rintro e rest ⟨⟩
    simp [InBlock]
  · rintro e rest ⟨⟩

theorem witness_ResetValues : ∃ t, step (engine [] [.mmioRead 0x000 4]) = .next t := ⟨_, rfl⟩

/-- A commit, a window write and a reset, each of which changes a register. -/
theorem witness_OnlyCommitWindowOrResetChangesRegisters :
    (∃ t, step { busyEngine [] with seq := .exec { multiplication with pending := [] } } = .next t ∧
      t.regs ≠ (busyEngine []).regs) ∧
    (∃ t, step (engine small [.mmioWrite 0x1000 1 0x99#32]) = .next t ∧ t.regs ≠ (engine small []).regs) ∧
    (∃ t, step (engine small [.reset]) = .next t ∧ t.regs ≠ (engine small []).regs) :=
  ⟨⟨_, rfl, by decide⟩, ⟨_, rfl, by decide⟩, ⟨_, rfl, by decide⟩⟩

/-- The commit of an EQ, and a reset, each of which changes RESULT. -/
theorem witness_OnlyPredicateCommitsChangeResult :
    (∃ t, step { engine small [] with seq := .exec ⟨.eq 0 0, [⟨1#8, 5⟩, ⟨1#8, 5⟩], [], some 1#32, []⟩ } = .next t ∧
      t.result ≠ 0#32) ∧
    (∃ t, step { engine small [.reset] with result := 1#32 } = .next t ∧ t.result ≠ 1#32) :=
  ⟨⟨_, rfl, by decide⟩, ⟨_, rfl, by decide⟩⟩

/-- VB1's engine has the invariant and steps. -/
theorem witness_EveryStepKeepsTheInvariant : Inv (busyEngine [.engine]) ∧ ∃ t, step (busyEngine [.engine]) = .next t := by
  refine ⟨⟨by decide, ?_, ?_, by decide, by decide, by decide, by decide, by decide⟩, _, rfl⟩
  · unfold FixedInt.Fits
    decide +kernel
  · rintro l ⟨⟩
    unfold Latched.Fits FixedInt.Fits
    refine ⟨by decide, by decide, ?_⟩
    rintro v ⟨⟩

end Sys2Proof.Tests
end

/-! PROOFS. The host's two ways to name an access of the register block, by offset and by bus address (00_scope.md R8,
R14). -/

namespace Sys2Proof.Proofs

open Sys2Proof Sys2Proof.Machine

theorem base_mod_blockSize : Config.base % Config.blockSize = 0 :=
  Nat.mul_mod_right Config.blockSize Config.baseUnit

section
variable (run : Word → State → Result) (s : State) {off : Nat} (n : Nat)

/-- A bus read in the block is decoded to its offset. -/
theorem perform_memRead_base (h : off < 0x2000) :
    perform run s (.memRead (Config.base + off) n) = perform run s (.mmioRead off n) := by
  simp only [perform, blockOffset_base h]

/-- A bus write in the block is decoded to its offset. -/
theorem perform_memWrite_base (v : Word) (h : off < 0x2000) :
    perform run s (.memWrite (Config.base + off) n v) = perform run s (.mmioWrite off n v) := by
  simp only [perform, blockOffset_base h]

end

/-- A step performs the event at the head of the schedule, on the state that no longer schedules it. -/
theorem step_cons (s : State) (e : Event) (rest : List Event) :
    step { s with schedule := e :: rest } = perform runWord { s with schedule := rest } e :=
  step_of_cons rfl

/-- Settles O47: the bus decodes `BASE + off` to `off`, so both events are performed alike. -/
theorem busAddressReachesOffset : Obligations.BusAddressReachesOffset := by
  unfold Obligations.BusAddressReachesOffset
  refine ⟨base_mod_blockSize, fun s off n v rest h => ⟨?read, ?write⟩⟩
  case read => rw [step_cons, step_cons, perform_memRead_base _ _ _ h]
  case write => rw [step_cons, step_cons, perform_memWrite_base _ _ _ _ h]

end Sys2Proof.Proofs

/-! PROOFS. The ranges of the digit loops of 41_compare.md to 44_modexp.md: a result stays below `M(w)`, a progress
event in `1..2w`. That a loop computes its closed form is not needed for this. -/

namespace Sys2Proof.Proofs

open Sys2Proof Sys2Proof.Machine

/-- A FixedInt of `w` bytes has `2w` digits (00_scope.md R12). -/
theorem modulus_eq_pow_digits (w : Nat) : modulus w = 16 ^ (2 * w) := by
  rw [modulus, pow_mul]; rfl

theorem modulus_mono {v w : Nat} (h : v ≤ w) : modulus v ≤ modulus w :=
  Nat.pow_le_pow_right (by decide) h

theorem lt_modulus_of_byte (v : Byte) {w : Nat} (h : 1 ≤ w) : v.toNat < modulus w :=
  v.isLt.trans_le (modulus_mono h)

/-! ### The digit count -/

theorem digit_eq_zero_of_lt {v j : Nat} (h : v < 16 ^ j) : digit v j = 0 := by
  rw [digit, Nat.div_eq_of_lt h]

theorem sdcScan_le {v m : Nat} (h : v < 16 ^ m) (n : Nat) : sdcScan v n ≤ m := by
  induction n with
  | zero => exact Nat.zero_le m
  | succ n ih =>
    unfold sdcScan
    split
    next hd =>
      by_contra hm
      exact hd (digit_eq_zero_of_lt (h.trans_le (Nat.pow_le_pow_right (by decide) (by omega))))
    next => exact ih

theorem sdcScan_pos {v : Nat} (hv : v ≠ 0) {n : Nat} (h : v < 16 ^ n) : 1 ≤ sdcScan v n := by
  induction n with
  | zero => rw [pow_zero] at h; omega
  | succ n ih =>
    unfold sdcScan
    split
    next => exact Nat.succ_pos n
    next hd =>
      refine ih (Nat.lt_of_div_eq_zero (by positivity) ?_)
      have hlt : v / 16 ^ n < 16 := Nat.div_lt_of_lt_mul (by rwa [← pow_succ])
      rwa [not_not, digit, Nat.mod_eq_of_lt hlt] at hd

/-! ### Addition and subtraction -/

/-- A digit below `j` more digits than the rest, whose own room is given, takes no more room than its place. -/
theorem digit_add_le {d r j n : Nat} (hd : d < 16) (hr : r + 16 ^ (j + 1) ≤ 16 ^ (j + 1 + n)) :
    d * 16 ^ j + r + 16 ^ j ≤ 16 ^ (j + (n + 1)) := by
  have hd' : (d + 1) * 16 ^ j ≤ 16 * 16 ^ j := Nat.mul_le_mul_right _ hd
  rw [pow_succ] at hr
  rw [show j + (n + 1) = j + 1 + n by omega]
  linarith

theorem addScan_le (a b n j c : Nat) : addScan a b n j c + 16 ^ j ≤ 16 ^ (j + n) := by
  induction n generalizing j c with
  | zero => simp [addScan]
  | succ n ih => exact digit_add_le (Nat.mod_lt _ (by decide)) (ih _ _)

theorem addDigits_lt (w a b : Nat) : addDigits w a b < modulus w := by
  have h := addScan_le a b (2 * w) 0 0
  rw [zero_add, ← modulus_eq_pow_digits] at h
  exact h

theorem digit_lt (v j : Nat) : digit v j < 16 := Nat.mod_lt _ (by decide)

theorem subScan_le (a b n j br : Nat) : subScan a b n j br + 16 ^ j ≤ 16 ^ (j + n) := by
  induction n generalizing j br with
  | zero => simp [subScan]
  | succ n ih =>
    have ha := digit_lt a j
    unfold subScan
    split
    next => exact digit_add_le (by omega) (ih _ _)
    next => exact digit_add_le (by omega) (ih _ _)

theorem subDigits_lt (w a b : Nat) : subDigits w a b < modulus w := by
  have h := subScan_le a b (2 * w) 0 0
  rw [zero_add, ← modulus_eq_pow_digits] at h
  exact h

theorem shlDigits_lt (w v k : Nat) : shlDigits w v k < modulus w := Nat.mod_lt _ (modulus_pos w)

/-! ### Multiplication and exponentiation -/

/-- Every event is in `1..n`. -/
def EventsWithin (n : Nat) (events : List Nat) : Prop := ∀ k ∈ events, 1 ≤ k ∧ k ≤ n

theorem eventsWithin_nil (n : Nat) : EventsWithin n [] := by simp [EventsWithin]

theorem eventsWithin_append {n : Nat} {es fs : List Nat} (he : EventsWithin n es) (hf : EventsWithin n fs) :
    EventsWithin n (es ++ fs) := fun k hk => (List.mem_append.1 hk).elim (he k) (hf k)

theorem mulLoop_lt {w acc : Nat} (h : acc < modulus w) (a fuel counter : Nat) :
    (mulLoop w a fuel counter acc).1 < modulus w := by
  induction fuel generalizing counter acc with
  | zero => exact h
  | succ fuel ih =>
    unfold mulLoop
    split
    next => exact h
    next => exact ih (Nat.mod_lt _ (modulus_pos w)) _

/-- The counter only falls, so each event is a place of the first counter. -/
theorem mulLoop_events {w n counter : Nat} (hn : n ≤ 2 * w) (h : counter < 16 ^ n) (a fuel acc : Nat) :
    EventsWithin n (mulLoop w a fuel counter acc).2 := by
  induction fuel generalizing counter acc with
  | zero => exact eventsWithin_nil n
  | succ fuel ih =>
    unfold mulLoop
    split
    next => exact eventsWithin_nil n
    next hc =>
      have hk : 1 ≤ sdcDigits w counter ∧ sdcDigits w counter ≤ n :=
        ⟨sdcScan_pos hc (h.trans_le (Nat.pow_le_pow_right (by decide) hn)), sdcScan_le h _⟩
      exact List.forall_mem_cons.2 ⟨hk, ih ((Nat.sub_le _ _).trans_lt h) _⟩

theorem mulw_lt (w a b : Nat) : (mulw w a b).1 < modulus w := mulLoop_lt (modulus_pos w) _ _ _

theorem mulw_events {w b : Nat} (h : b < modulus w) (a : Nat) : EventsWithin (2 * w) (mulw w a b).2 :=
  mulLoop_events le_rfl (by rwa [← modulus_eq_pow_digits]) _ _ _

theorem divrem_quotient_lt {w a : Nat} (h : a < modulus w) (d : Nat) : (divrem a d).1 < modulus w :=
  (Nat.div_le_self a d).trans_lt h

theorem divrem_remainder_lt {w a : Nat} (h : a < modulus w) (d : Nat) : (divrem a d).2 < modulus w :=
  (Nat.mod_le a d).trans_lt h

theorem mulmodw_lt (w a x n : Nat) : (mulmodw w a x n).1 < modulus w := by
  unfold mulmodw
  split
  next => exact Nat.mod_lt _ (modulus_pos w)
  next => exact divrem_remainder_lt (mulw_lt w a x) n

/-- On the wide path too the events are places of the multiplier, which has `2w` digits. -/
theorem mulmodw_events {w x : Nat} (h : x < modulus w) (a n : Nat) : EventsWithin (2 * w) (mulmodw w a x n).2 := by
  unfold mulmodw
  split
  next =>
    rw [modulus_eq_pow_digits] at h
    exact mulLoop_events (by omega) h _ _ _
  next => exact mulw_events h a

theorem powLoop_lt {w m result : Nat} (h : result < modulus w) (fuel base ex : Nat) :
    (powLoop w m fuel base ex result).1 < modulus w := by
  induction fuel generalizing base ex result with
  | zero => exact h
  | succ fuel ih =>
    unfold powLoop
    split
    next => exact h
    next =>
      split
      next => exact ih h _ _
      next => exact ih (mulmodw_lt _ _ _ _) _ _

theorem powLoop_events {w base : Nat} (h : base < modulus w) (m fuel ex result : Nat) :
    EventsWithin (2 * w) (powLoop w m fuel base ex result).2 := by
  induction fuel generalizing base ex result with
  | zero => exact eventsWithin_nil _
  | succ fuel ih =>
    unfold powLoop
    split
    next => exact eventsWithin_nil _
    next =>
      split
      next => exact eventsWithin_append (mulmodw_events h _ _) (ih (mulmodw_lt _ _ _ _) _ _)
      next => exact eventsWithin_append (mulmodw_events h _ _) (ih h _ _)

/-- The loop starts at 1, which is below `M(w)` for an allocated width. -/
theorem powmodw_lt {w : Nat} (hw : 1 ≤ w) (b e m : Nat) : (powmodw w b e m).1 < modulus w :=
  powLoop_lt (Nat.one_lt_pow (by omega) (by decide)) _ _ _

theorem powmodw_events {w b : Nat} (h : b < modulus w) (e m : Nat) : EventsWithin (2 * w) (powmodw w b e m).2 :=
  powLoop_events h _ _ _ _

end Sys2Proof.Proofs

/-! PROOFS. Once, what a command that passes its checks latches (50_command_cycle.md R257): the columns of the
register-role table (30_encoding.md R110) and the ranges of its values, in every state. -/

namespace Sys2Proof.Proofs

open Sys2Proof Sys2Proof.Machine

/-! ### A chain of checks that passes, check by check -/

section
variable (s : State) (f : FixedInt → Except CmdError Latched) (g : Unit → Except CmdError Latched) (l : Latched)

theorem readOperand_bind_ok_iff (r : Reg) :
    readOperand s r >>= f = .ok l ↔ (s.reg r).width ≠ 0#8 ∧ f (s.reg r) = .ok l := by
  by_cases h : (s.reg r).width = 0#8
  · rw [readOperand_of_unallocated h]
    exact ⟨nofun, fun ⟨hn, _⟩ => absurd h hn⟩
  · rw [readOperand_of_allocated h]
    exact (and_iff_right h).symm

theorem checkWidth_bind_ok_iff (k : Byte) :
    checkWidth s k >>= g = .ok l ↔ (1 ≤ k.toNat ∧ k.toNat ≤ s.wmax.toNat) ∧ g () = .ok l := by
  rw [← checkWidth_ok_iff]
  cases checkWidth s k with
  | error e => exact ⟨nofun, nofun⟩
  | ok u => exact (and_iff_right rfl).symm

theorem checkSameWidth_bind_ok_iff (x y : FixedInt) :
    checkSameWidth x y >>= g = .ok l ↔ x.width = y.width ∧ g () = .ok l := by
  by_cases h : x.width = y.width
  · rw [checkSameWidth_of_eq h]
    exact (and_iff_right h).symm
  · rw [checkSameWidth_of_ne h]
    exact ⟨nofun, fun ⟨he, _⟩ => absurd he h⟩

theorem checkDistinct_bind_ok_iff (a b : Reg) :
    checkDistinct a b >>= g = .ok l ↔ a ≠ b ∧ g () = .ok l := by
  by_cases h : a = b
  · rw [h, checkDistinct_self]
    exact ⟨nofun, fun ⟨hn, _⟩ => absurd rfl hn⟩
  · rw [checkDistinct_of_ne h]
    exact (and_iff_right h).symm

theorem checkDivisor_bind_ok_iff (d : FixedInt) :
    checkDivisor d >>= g = .ok l ↔ d.val ≠ 0 ∧ g () = .ok l := by
  by_cases h : d.val = 0
  · rw [checkDivisor_of_eq h]
    exact ⟨nofun, fun ⟨hn, _⟩ => absurd h hn⟩
  · rw [checkDivisor_of_ne h]
    exact (and_iff_right h).symm

end

/-! ### What is latched -/

/-- What command `i`, issued in `s`, may latch: the "reads" column is allocated, the width immediate legal, the
destinations and their widths are those of the "writes" column, each value fits its width, and an event or a RESULT is
at most the digit count of an operand. -/
structure Latches (s : State) (i : Instr) (l : Latched) : Prop where
  reads_allocated : ∀ r ∈ readsOf i, (s.reg r).width ≠ 0#8
  immediate_legal : ¬ badWidthImmediate s i
  destinations : l.writes.map (fun p => (p.1, p.2.width)) = writesOf s i
  values_fit : ∀ p ∈ l.writes, p.2.wf
  events_range : ∀ k ∈ l.pending, 1 ≤ k ∧ ∃ r ∈ readsOf i, k ≤ 2 * (s.reg r).width.toNat
  result_range : ∀ v, l.result = some v → ∃ r ∈ readsOf i, v.toNat ≤ 2 * (s.reg r).width.toNat

/-- Whatever command `i` latches when its checks pass in `s`. -/
def IssueLatches (s : State) (i : Instr) : Prop :=
  ∃ c, exec i s = issue i s c ∧ ∀ l, c = .ok l → Latches s i l

section
variable {s : State} {i : Instr} {a : Reg} {w : Byte} {v : Nat} {ops : List FixedInt}

/-- A command with one destination and progress events, which are places of the operand `r`. -/
theorem Latches.writeWithEvents {r : Reg} {events : List Nat} (hreads : ∀ r ∈ readsOf i, (s.reg r).width ≠ 0#8)
    (himm : ¬ badWidthImmediate s i) (hdest : [(a, w)] = writesOf s i) (hv : v < modulus w.toNat)
    (hr : r ∈ readsOf i) (he : EventsWithin (2 * (s.reg r).width.toNat) events) :
    Latches s i { latchWrite i ops a w v with pending := events } where
  reads_allocated := hreads
  immediate_legal := himm
  destinations := hdest
  values_fit := List.forall_mem_singleton.2 hv
  events_range k hk := ⟨(he k hk).1, r, hr, (he k hk).2⟩
  result_range := nofun

/-- A command with one destination and no event. -/
theorem Latches.write (hreads : ∀ r ∈ readsOf i, (s.reg r).width ≠ 0#8) (himm : ¬ badWidthImmediate s i)
    (hdest : [(a, w)] = writesOf s i) (hv : v < modulus w.toNat) : Latches s i (latchWrite i ops a w v) where
  reads_allocated := hreads
  immediate_legal := himm
  destinations := hdest
  values_fit := List.forall_mem_singleton.2 hv
  events_range := nofun
  result_range := nofun

/-- A command that writes only RESULT. -/
theorem Latches.resultOnly {r : Reg} {x : Word} (hreads : ∀ r ∈ readsOf i, (s.reg r).width ≠ 0#8)
    (himm : ¬ badWidthImmediate s i) (hdest : [] = writesOf s i) (hr : r ∈ readsOf i)
    (hx : x.toNat ≤ 2 * (s.reg r).width.toNat) : Latches s i (latchResult i ops x) where
  reads_allocated := hreads
  immediate_legal := himm
  destinations := hdest
  values_fit := nofun
  events_range := nofun
  result_range := by
    rintro _ ⟨⟩
    exact ⟨r, hr, hx⟩

end

theorem one_le_toNat_of_ne_zero {w : Byte} (h : w ≠ 0#8) : 1 ≤ w.toNat :=
  Nat.pos_of_ne_zero fun hz => h (BitVec.eq_of_toNat_eq hz)

/-- The legal range of a width immediate is what `badWidthImmediate` denies. -/
theorem not_bad_of_legal {w k : Byte} (h : 1 ≤ k.toNat ∧ k.toNat ≤ w.toNat) :
    ¬ (k.toNat = 0 ∨ w.toNat < k.toNat) := by omega

/-- A boolean fits under the digit count of any allocated operand. -/
theorem boolWord_le (p : Bool) {w : Byte} (h : w ≠ 0#8) : (boolWord p).toNat ≤ 2 * w.toNat := by
  have hw := one_le_toNat_of_ne_zero h
  have hp : (boolWord p).toNat ≤ 1 := by cases p <;> decide
  omega

theorem sdcDigits_le (f : FixedInt) : sdcDigits f.width.toNat f.val ≤ 2 * f.width.toNat :=
  sdcScan_le (by rw [← modulus_eq_pow_digits]; exact val_lt f) _

/-- The value of an operand of the same width. -/
theorem val_lt_of_width_eq {x y : FixedInt} (h : x.width = y.width) : y.val < modulus x.width.toNat :=
  h ▸ val_lt y

/-! ### The shapes that commands share

A shape is given by the columns of the command's row and by its meaning, which for each command hold by `rfl`. -/

section
variable {s : State} {i : Instr} {a b : Reg}

/-- A predicate of one operand. -/
theorem unaryTest_latches (p : FixedInt → Bool) (hreads : readsOf i = [a]) (himm : ¬ badWidthImmediate s i)
    (hdest : [] = writesOf s i)
    (hexec : exec i s = issue i s (do
      let x ← readOperand s a
      return latchResult i [x] (boolWord (p x)))) : IssueLatches s i := by
  refine ⟨_, hexec, fun l h => ?_⟩
  rw [readOperand_bind_ok_iff] at h
  obtain ⟨ha, ⟨⟩⟩ := h
  exact .resultOnly (by simp [hreads, ha]) himm hdest (by simp [hreads]) (boolWord_le _ ha)

/-- A predicate of two operands of one width. -/
theorem binaryTest_latches (p : FixedInt → FixedInt → Bool) (hreads : readsOf i = [a, b])
    (himm : ¬ badWidthImmediate s i) (hdest : [] = writesOf s i)
    (hexec : exec i s = issue i s (do
      let x ← readOperand s a
      let y ← readOperand s b
      checkSameWidth x y
      return latchResult i [x, y] (boolWord (p x y)))) : IssueLatches s i := by
  refine ⟨_, hexec, fun l h => ?_⟩
  rw [readOperand_bind_ok_iff, readOperand_bind_ok_iff, checkSameWidth_bind_ok_iff] at h
  obtain ⟨ha, hb, -, ⟨⟩⟩ := h
  exact .resultOnly (r := a) (by simp [hreads, ha, hb]) himm hdest (by simp [hreads]) (boolWord_le _ ha)

/-- An operation on one register in place. -/
theorem unaryWrite_latches (f : FixedInt → Nat) (hf : ∀ x, f x < modulus x.width.toNat) (hreads : readsOf i = [a])
    (himm : ¬ badWidthImmediate s i) (hdest : [(a, (s.reg a).width)] = writesOf s i)
    (hexec : exec i s = issue i s (do
      let x ← readOperand s a
      return latchWrite i [x] a x.width (f x))) : IssueLatches s i := by
  refine ⟨_, hexec, fun l h => ?_⟩
  rw [readOperand_bind_ok_iff] at h
  obtain ⟨ha, ⟨⟩⟩ := h
  exact .write (by simp [hreads, ha]) himm hdest (hf _)

/-- An operation of two operands of one width, in place and with no event. -/
theorem binaryWrite_latches (f : FixedInt → FixedInt → Nat) (hf : ∀ x y, f x y < modulus x.width.toNat)
    (hreads : readsOf i = [a, b]) (himm : ¬ badWidthImmediate s i) (hdest : [(a, (s.reg a).width)] = writesOf s i)
    (hexec : exec i s = issue i s (do
      let x ← readOperand s a
      let y ← readOperand s b
      checkSameWidth x y
      return latchWrite i [x, y] a x.width (f x y))) : IssueLatches s i := by
  refine ⟨_, hexec, fun l h => ?_⟩
  rw [readOperand_bind_ok_iff, readOperand_bind_ok_iff, checkSameWidth_bind_ok_iff] at h
  obtain ⟨ha, hb, -, ⟨⟩⟩ := h
  exact .write (by simp [hreads, ha, hb]) himm hdest (hf _ _)

/-- A division in place. -/
theorem division_latches (f : FixedInt → FixedInt → Nat) (hf : ∀ x y, f x y < modulus x.width.toNat)
    (hreads : readsOf i = [a, b]) (himm : ¬ badWidthImmediate s i) (hdest : [(a, (s.reg a).width)] = writesOf s i)
    (hexec : exec i s = issue i s (do
      let x ← readOperand s a
      let y ← readOperand s b
      checkSameWidth x y
      checkDivisor y
      return latchWrite i [x, y] a x.width (f x y))) : IssueLatches s i := by
  refine ⟨_, hexec, fun l h => ?_⟩
  rw [readOperand_bind_ok_iff, readOperand_bind_ok_iff, checkSameWidth_bind_ok_iff, checkDivisor_bind_ok_iff] at h
  obtain ⟨ha, hb, -, -, ⟨⟩⟩ := h
  exact .write (by simp [hreads, ha, hb]) himm hdest (hf _ _)

end

/-! ### The commands -/

section
variable (a b c d : Reg) (v k : Byte) (s : State)

/-! #### Construction and assignment (40_construct.md) -/

theorem create_latches : IssueLatches s (.create a k) := by
  refine ⟨_, rfl, fun l h => ?_⟩
  rw [checkWidth_bind_ok_iff] at h
  obtain ⟨hk, ⟨⟩⟩ := h
  exact .write nofun (not_bad_of_legal hk) rfl (modulus_pos _)

theorem small_latches : IssueLatches s (.small a v k) := by
  refine ⟨_, rfl, fun l h => ?_⟩
  rw [checkWidth_bind_ok_iff] at h
  obtain ⟨hk, ⟨⟩⟩ := h
  exact .write nofun (not_bad_of_legal hk) rfl (lt_modulus_of_byte v hk.1)

theorem widen_latches : IssueLatches s (.widen a b k) := by
  refine ⟨_, rfl, fun l h => ?_⟩
  rw [checkWidth_bind_ok_iff, readOperand_bind_ok_iff] at h
  obtain ⟨hk, hb, ⟨⟩⟩ := h
  exact .write (by simp [readsOf, hb]) (not_bad_of_legal hk) rfl (Nat.mod_lt _ (modulus_pos _))

theorem assign_latches : IssueLatches s (.assign a b) := by
  refine ⟨_, rfl, fun l h => ?_⟩
  rw [readOperand_bind_ok_iff, readOperand_bind_ok_iff] at h
  obtain ⟨ha, hb, ⟨⟩⟩ := h
  exact .write (by simp [readsOf, ha, hb]) id rfl (Nat.mod_lt _ (modulus_pos _))

theorem clear_latches : IssueLatches s (.clear a) :=
  unaryWrite_latches (fun _ => 0) (fun _ => modulus_pos _) rfl id rfl rfl

/-! #### Comparison and digit count (41_compare.md) -/

theorem eq_latches : IssueLatches s (.eq a b) :=
  binaryTest_latches (fun x y => x.val == y.val) rfl id rfl rfl

theorem nz_latches : IssueLatches s (.nz a) :=
  unaryTest_latches (fun x => x.val != 0) rfl id rfl rfl

theorem gt_latches : IssueLatches s (.gt a b) :=
  binaryTest_latches (fun x y => cmpDigits x.width.toNat x.val y.val == .gt) rfl id rfl rfl

theorem ge_latches : IssueLatches s (.ge a b) :=
  binaryTest_latches (fun x y => cmpDigits x.width.toNat x.val y.val != .lt) rfl id rfl rfl

theorem sdc_latches : IssueLatches s (.sdc a) := by
  refine ⟨_, rfl, fun l h => ?_⟩
  rw [readOperand_bind_ok_iff] at h
  obtain ⟨ha, ⟨⟩⟩ := h
  exact .resultOnly (by simp [readsOf, ha]) id rfl (.head _) ((Nat.mod_le _ _).trans (sdcDigits_le _))

theorem even_latches : IssueLatches s (.even a) :=
  unaryTest_latches (fun x => byteOf x.val 0 % 2 == 0) rfl id rfl rfl

/-! #### Shift and arithmetic (42_arith.md) -/

theorem shl_latches : IssueLatches s (.shl a k) :=
  unaryWrite_latches (fun x => shlDigits x.width.toNat x.val k.toNat) (fun _ => shlDigits_lt _ _ _) rfl id rfl rfl

theorem add_latches : IssueLatches s (.add a b) :=
  binaryWrite_latches (fun x y => addDigits x.width.toNat x.val y.val) (fun _ _ => addDigits_lt _ _ _) rfl id rfl rfl

theorem sub_latches : IssueLatches s (.sub a b) :=
  binaryWrite_latches (fun x y => subDigits x.width.toNat x.val y.val) (fun _ _ => subDigits_lt _ _ _) rfl id rfl rfl

theorem mul_latches : IssueLatches s (.mul a b) := by
  refine ⟨_, rfl, fun l h => ?_⟩
  rw [readOperand_bind_ok_iff, readOperand_bind_ok_iff, checkSameWidth_bind_ok_iff] at h
  obtain ⟨ha, hb, hab, ⟨⟩⟩ := h
  exact .writeWithEvents (by simp [readsOf, ha, hb]) id rfl (mulw_lt _ _ _) (.head _)
    (mulw_events (val_lt_of_width_eq hab) _)

/-! #### Division (43_divide.md) -/

/-- DIVREM alone has two destinations. -/
theorem divrem_latches : IssueLatches s (.divrem a b c d) := by
  refine ⟨_, rfl, fun l h => ?_⟩
  rw [readOperand_bind_ok_iff, readOperand_bind_ok_iff, checkSameWidth_bind_ok_iff, checkDistinct_bind_ok_iff,
    checkDivisor_bind_ok_iff] at h
  obtain ⟨hc, hd, -, -, -, ⟨⟩⟩ := h
  have hx := val_lt (s.reg c)
  exact {
    reads_allocated := by simp [readsOf, hc, hd]
    immediate_legal := id
    destinations := rfl
    values_fit := by
      simp only [List.forall_mem_cons]
      exact ⟨divrem_quotient_lt hx _, divrem_remainder_lt hx _, nofun⟩
    events_range := nofun
    result_range := nofun }

theorem div_latches : IssueLatches s (.div a b) :=
  division_latches (fun x y => (divrem x.val y.val).1) (fun x _ => divrem_quotient_lt (val_lt x) _) rfl id rfl rfl

theorem mod_latches : IssueLatches s (.mod a b) :=
  division_latches (fun x y => (divrem x.val y.val).2) (fun x _ => divrem_remainder_lt (val_lt x) _) rfl id rfl rfl

/-! #### Modular multiplication and exponentiation (44_modexp.md) -/

theorem mulmod_latches : IssueLatches s (.mulmod a b c) := by
  refine ⟨_, rfl, fun l h => ?_⟩
  rw [readOperand_bind_ok_iff, readOperand_bind_ok_iff, readOperand_bind_ok_iff, checkSameWidth_bind_ok_iff,
    checkSameWidth_bind_ok_iff, checkDivisor_bind_ok_iff] at h
  obtain ⟨ha, hb, hc, hab, -, -, ⟨⟩⟩ := h
  exact .writeWithEvents (by simp [readsOf, ha, hb, hc]) id rfl (mulmodw_lt _ _ _ _) (.head _)
    (mulmodw_events (val_lt_of_width_eq hab) _ _)

theorem powmod_latches : IssueLatches s (.powmod a b c d) := by
  refine ⟨_, rfl, fun l h => ?_⟩
  rw [readOperand_bind_ok_iff, readOperand_bind_ok_iff, readOperand_bind_ok_iff, checkSameWidth_bind_ok_iff,
    checkSameWidth_bind_ok_iff, checkDivisor_bind_ok_iff] at h
  obtain ⟨hb, hc, hd, -, -, -, ⟨⟩⟩ := h
  exact .writeWithEvents (by simp [readsOf, hb, hc, hd]) id rfl (powmodw_lt (one_le_toNat_of_ne_zero hb) _ _ _)
    (.head _) (powmodw_events (val_lt _) _ _)

end

/-- All commands: the issue in `s` latches within `Latches`. -/
theorem exec_latches (i : Instr) (s : State) : IssueLatches s i := by
  cases i with
  | create a k => exact create_latches a k s
  | small a v k => exact small_latches a v k s
  | widen a b k => exact widen_latches a b k s
  | assign a b => exact assign_latches a b s
  | clear a => exact clear_latches a s
  | eq a b => exact eq_latches a b s
  | nz a => exact nz_latches a s
  | gt a b => exact gt_latches a b s
  | ge a b => exact ge_latches a b s
  | sdc a => exact sdc_latches a s
  | even a => exact even_latches a s
  | shl a k => exact shl_latches a k s
  | add a b => exact add_latches a b s
  | sub a b => exact sub_latches a b s
  | mul a b => exact mul_latches a b s
  | divrem a b c d => exact divrem_latches a b c d s
  | div a b => exact div_latches a b s
  | mod a b => exact mod_latches a b s
  | mulmod a b c => exact mulmod_latches a b c s
  | powmod a b c d => exact powmod_latches a b c d s

end Sys2Proof.Proofs

/-! PROOFS. The invariant of every reachable state: reset has it, every named update of the state keeps it, and so
does every step. -/

namespace Sys2Proof.Proofs

open Sys2Proof Sys2Proof.Machine

/-! ### What the invariant says of a latched command -/

/-- In a state with the invariant the destinations have legal widths: a legal immediate, or an operand's. -/
theorem writesOf_width_legal {s : State} {i : Instr} (hs : Inv s) (hreads : ∀ r ∈ readsOf i, (s.reg r).width ≠ 0#8)
    (himm : ¬ badWidthImmediate s i) {p : Reg × Byte} (hp : p ∈ writesOf s i) :
    p.2 ≠ 0#8 ∧ p.2.toNat ≤ s.wmax.toNat := by
  have ofReg {r : Reg} (hr : r ∈ readsOf i) (hw : p.2 = (s.reg r).width) : p.2 ≠ 0#8 ∧ p.2.toNat ≤ s.wmax.toNat :=
    hw ▸ ⟨hreads r hr, (hs.regs_fit r).1⟩
  have ofImm {k : Byte} (hk : ¬ (k.toNat = 0 ∨ s.wmax.toNat < k.toNat)) (hw : p.2 = k) :
      p.2 ≠ 0#8 ∧ p.2.toNat ≤ s.wmax.toNat := by
    subst hw
    rw [not_or, not_lt] at hk
    exact ⟨fun h0 => hk.1 (congrArg BitVec.toNat h0), hk.2⟩
  cases i with
  | create _ _ | small _ _ _ | widen _ _ _ => exact ofImm himm (congrArg Prod.snd (List.mem_singleton.1 hp))
  | eq _ _ | nz _ | gt _ _ | ge _ _ | sdc _ | even _ => cases hp
  | divrem a b c d =>
    have hw : p.2 = (s.reg c).width := by
      simp only [writesOf, List.mem_cons, List.not_mem_nil, or_false] at hp
      rcases hp with rfl | rfl <;> rfl
    exact ofReg (.head _) hw
  | assign _ _ | clear _ | shl _ _ | add _ _ | sub _ _ | mul _ _ | div _ _ | mod _ _ | mulmod _ _ _ | powmod _ _ _ _ =>
    exact ofReg (.head _) (congrArg Prod.snd (List.mem_singleton.1 hp))

theorem Latches.fits {s : State} {i : Instr} {l : Latched} (h : Latches s i l) (hs : Inv s) : l.Fits s.wmax := by
  have le_wmax {n : Nat} (hn : ∃ r ∈ readsOf i, n ≤ 2 * (s.reg r).width.toNat) : n ≤ 2 * s.wmax.toNat := by
    obtain ⟨r, -, hr⟩ := hn
    have := (hs.regs_fit r).1
    omega
  refine ⟨fun p hp => ?writes, fun k hk => ?events, fun v hv => le_wmax (h.result_range v hv)⟩
  case writes =>
    have hmem : (p.1, p.2.width) ∈ writesOf s i := h.destinations ▸ List.mem_map_of_mem hp
    obtain ⟨hpos, hle⟩ := writesOf_width_legal hs h.reads_allocated h.immediate_legal hmem
    exact ⟨hpos, hle, h.values_fit p hp⟩
  case events =>
    obtain ⟨hpos, hk⟩ := h.events_range k hk
    exact ⟨hpos, le_wmax hk⟩

/-! ### Each update keeps it -/

theorem errorCode_range (e : CmdError) : 1 ≤ (errorCode e).toNat ∧ (errorCode e).toNat ≤ 7 := by
  cases e <;> decide

section
variable {s : State} (h : Inv s)
include h

/-- The invariant does not look at CTRL, CMD, ACCERR, PROG, the schedule or the host's latest read. -/
theorem inv_of_frame {t : State} (hwmax : t.wmax = s.wmax) (hregs : t.regs = s.regs) (hseq : t.seq = s.seq)
    (hdone : t.status.done = s.status.done) (herr : t.status.err = s.status.err)
    (hcode : t.status.errcode = s.status.errcode) (hprogress : t.progress = s.progress)
    (hresult : t.result = s.result) : Inv t where
  wmax_pos := hwmax ▸ h.wmax_pos
  regs_fit r := by
    have := h.regs_fit r
    rwa [State.reg, ← hregs, ← hwmax] at this
  latched_fits l hl := hwmax ▸ h.latched_fits l (hseq ▸ hl)
  errcode_zero := herr ▸ hcode ▸ h.errcode_zero
  errcode_legal := herr ▸ hcode ▸ h.errcode_legal
  busy_clear := by
    have := h.busy_clear
    rwa [State.busy, ← hseq, ← hdone, ← herr] at this
  progress_range := hwmax ▸ hprogress ▸ h.progress_range
  result_range := hwmax ▸ hresult ▸ h.result_range

theorem inv_acknowledge (v : Word) : Inv (s.acknowledge v) where
  wmax_pos := h.wmax_pos
  regs_fit := h.regs_fit
  latched_fits := h.latched_fits
  errcode_zero he := by
    simp only [acknowledge_status, clearStatus] at he ⊢
    cases hv : v.getLsbD 2 with
    | true => rfl
    | false =>
      rw [hv, Bool.not_false, Bool.and_true] at he
      exact h.errcode_zero he
  errcode_legal he := by
    simp only [acknowledge_status, clearStatus] at he ⊢
    cases hv : v.getLsbD 2 with
    | true => rw [hv, Bool.not_true, Bool.and_false] at he; cases he
    | false =>
      rw [hv, Bool.not_false, Bool.and_true] at he
      exact h.errcode_legal he
  busy_clear hb := by
    obtain ⟨hd, he⟩ := h.busy_clear hb
    simp [clearStatus, hd, he]
  progress_range := h.progress_range
  result_range := h.result_range

/-- A failed issue: the error's code is legal, and nothing else enters the state. -/
theorem inv_failIssue (idle : s.busy = false) (x : Word) (e : CmdError) :
    Inv ((s.beginIssue x).raiseCmdError e) where
  wmax_pos := h.wmax_pos
  regs_fit := h.regs_fit
  latched_fits := h.latched_fits
  errcode_zero := nofun
  errcode_legal _ := errorCode_range e
  busy_clear hb := absurd (idle.symm.trans hb) nofun
  progress_range := Nat.zero_le _
  result_range := h.result_range

theorem inv_startIssue {l : Latched} (hl : l.Fits s.wmax) (x : Word) : Inv ((s.beginIssue x).startExec l) where
  wmax_pos := h.wmax_pos
  regs_fit := h.regs_fit
  latched_fits := by
    rintro _ ⟨⟩
    exact hl
  errcode_zero _ := rfl
  errcode_legal := nofun
  busy_clear _ := ⟨rfl, rfl⟩
  progress_range := Nat.zero_le _
  result_range := h.result_range

/-- An event enters PROGRESS uncut, being at most `2 * WMAX` (log 23). -/
theorem inv_emitProgress {l : Latched} {k : Nat} {rest : List Nat} (hs : s.seq = .exec l)
    (hp : l.pending = k :: rest) : Inv (s.emitProgress l k rest) := by
  obtain ⟨hwrites, hevents, hresult⟩ := h.latched_fits l hs
  rw [hp, List.forall_mem_cons] at hevents
  obtain ⟨hk, hrest⟩ := hevents
  exact {
    wmax_pos := h.wmax_pos
    regs_fit := h.regs_fit
    latched_fits := by
      rintro _ ⟨⟩
      exact ⟨hwrites, hrest, hresult⟩
    errcode_zero := h.errcode_zero
    errcode_legal := h.errcode_legal
    busy_clear := fun _ => h.busy_clear (busy_of_exec s l hs)
    progress_range := (Nat.mod_le k _).trans hk.2
    result_range := h.result_range }

theorem inv_commit {l : Latched} (hs : s.seq = .exec l) : Inv (s.commit l) where
  wmax_pos := h.wmax_pos
  regs_fit r := by
    obtain ⟨hwrites, -, -⟩ := h.latched_fits l hs
    rcases writeRegs_cases s.regs l.writes r with hr | ⟨p, hp, -, hr⟩
    · have := h.regs_fit r
      rwa [State.reg, ← hr] at this
    · obtain ⟨-, hwidth, -⟩ := hwrites p hp
      rw [State.reg, commit_regs, hr]
      exact ⟨hwidth, fixedOf_wf _ _⟩
  latched_fits := nofun
  errcode_zero := h.errcode_zero
  errcode_legal := h.errcode_legal
  busy_clear := nofun
  progress_range := h.progress_range
  result_range := by
    obtain ⟨-, -, hresult⟩ := h.latched_fits l hs
    rw [commit_result]
    cases hv : l.result with
    | none => exact h.result_range
    | some v => exact hresult v hv

theorem inv_engineStep : Inv s.engineStep := by
  rcases engineStep_cases s with ⟨-, ht⟩ | ⟨l, k, rest, hs, hp, ht⟩ | ⟨l, hs, -, ht⟩
  · rwa [ht]
  · rw [ht]
    exact inv_emitProgress h hs hp
  · rw [ht]
    exact inv_commit h hs

theorem inv_writeWindow (off n : Nat) (v : Word) : Inv (writeWindow s off n v) where
  wmax_pos := h.wmax_pos
  regs_fit r := by
    by_cases hr : r = windowReg off
    · obtain ⟨hwidth, hbytes⟩ := h.regs_fit r
      rw [hr] at hwidth hbytes ⊢
      rw [writeWindow_reg_self]
      exact ⟨by rwa [writeLanes_width], writeLanes_wf hbytes _ _ _⟩
    · rw [writeWindow_reg_other s off n v hr]
      exact h.regs_fit r
  latched_fits := h.latched_fits
  errcode_zero := h.errcode_zero
  errcode_legal := h.errcode_legal
  busy_clear := h.busy_clear
  progress_range := h.progress_range
  result_range := h.result_range

theorem inv_refuseAccess : Inv s.refuseAccess := inv_of_frame h rfl rfl rfl rfl rfl rfl rfl rfl

theorem inv_setCtrl (v : Word) : Inv (s.setCtrl v) := inv_of_frame h rfl rfl rfl rfl rfl rfl rfl rfl

end

/-- The state after reset, whatever the legal WMAX. -/
theorem inv_resetFor {wmax : Byte} (h : 1 ≤ wmax.toNat) : Inv (State.resetFor wmax) where
  wmax_pos := h
  regs_fit r := by
    have hr : (State.resetFor wmax).reg r = ⟨0#8, 0⟩ := by simp [State.reg, State.resetFor]
    rw [hr]
    exact ⟨Nat.zero_le _, Nat.one_pos⟩
  latched_fits := nofun
  errcode_zero _ := rfl
  errcode_legal := nofun
  busy_clear := nofun
  progress_range := Nat.zero_le _
  result_range := Nat.zero_le _

theorem inv_hardReset {s : State} (h : Inv s) : Inv s.hardReset :=
  inv_of_frame (inv_resetFor h.wmax_pos) rfl rfl rfl rfl rfl rfl rfl rfl

/-! ### Each event keeps it -/

/-- A command word issued while idle, whether it decodes and passes its checks or not. -/
theorem inv_runWord {s t : State} (h : Inv s) (idle : s.busy = false) {w : Word} (ht : runWord w s = .next t) :
    Inv t := by
  cases hw : decode w with
  | error e =>
    rw [runWord_of_error hw, issueWord_of_error idle] at ht
    cases ht
    exact inv_failIssue h idle w e
  | ok i =>
    obtain ⟨c, hc, hl⟩ := exec_latches i s
    rw [runWord_of_ok hw, hc, issue_next] at ht
    cases ht
    cases c with
    | error e =>
      rw [issueWord_of_error idle]
      exact inv_failIssue h idle _ e
    | ok l =>
      rw [issueWord_of_ok idle]
      exact inv_startIssue h ((hl l rfl).fits h) _

/-- All that a performed write other than to CMD can do. -/
theorem store_cases (s : State) (off n : Nat) (v : Word) :
    s.store off n v = s.setCtrl v ∨ s.store off n v = s.acknowledge v ∨ s.store off n v = s ∨
    s.store off n v = writeWindow s off n v := by
  unfold State.store writeControl
  split_ifs <;> simp

theorem inv_store {s : State} (h : Inv s) (off n : Nat) (v : Word) : Inv (s.store off n v) := by
  rcases store_cases s off n v with ht | ht | ht | ht <;> rw [ht]
  · exact inv_setCtrl h v
  · exact inv_acknowledge h v
  · exact h
  · exact inv_writeWindow h off n v

/-- A CMD write that is performed finds the engine idle (20_memory.md R74 (a)). -/
theorem idle_of_not_writeRefused_cmd {s : State} {n : Nat} (h : writeRefused s cmdOffset n = false) :
    s.busy = false := by
  simp only [writeRefused, Bool.or_eq_false_iff, beq_self_eq_true, Bool.or_true, Bool.and_true] at h
  exact h.2

theorem inv_hostWriteAt {s t : State} (h : Inv s) {off n : Nat} {v : Word}
    (ht : hostWriteAt runWord s off n v = .next t) : Inv t := by
  unfold hostWriteAt mmioWrite at ht
  split_ifs at ht with hblock hrefused hcmd
  · cases ht
    exact inv_refuseAccess h
  · subst hcmd
    exact inv_runWord h (idle_of_not_writeRefused_cmd (by simpa using hrefused)) ht
  · cases ht
    exact inv_store h off n v

theorem inv_hostReadAt {s t : State} (h : Inv s) {off n : Nat} (ht : hostReadAt s off n = .next t) : Inv t := by
  unfold hostReadAt State.mmioRead at ht
  split_ifs at ht with hblock hrefused <;> cases ht <;> exact inv_of_frame h rfl rfl rfl rfl rfl rfl rfl rfl

theorem inv_perform {s t : State} (h : Inv s) {e : Event} (ht : perform runWord s e = .next t) : Inv t := by
  cases e with
  | mmioRead off n => exact inv_hostReadAt h ht
  | mmioWrite off n v => exact inv_hostWriteAt h ht
  | memRead addr n =>
    cases hb : blockOffset addr with
    | none => simp [perform, hb] at ht
    | some off => exact inv_hostReadAt h (by simpa [perform, hb] using ht)
  | memWrite addr n v =>
    cases hb : blockOffset addr with
    | none => simp [perform, hb] at ht
    | some off => exact inv_hostWriteAt h (by simpa [perform, hb] using ht)
  | engine =>
    cases ht
    exact inv_engineStep h
  | reset =>
    cases ht
    exact inv_hardReset h

/-! ### The obligations -/

theorem wmax_legal : 1 ≤ Config.wmax.toNat := by
  have := Config.wmaxDraw.isLt
  rw [Config.wmax, BitVec.toNat_ofNat]
  omega

/-- Settles O54: the state after reset has it for every legal WMAX. -/
theorem invariantHoldsAtReset : Obligations.InvariantHoldsAtReset :=
  inv_resetFor wmax_legal

/-- Settles O55: a step is an engine step or the event at the head of the schedule. -/
theorem everyStepKeepsTheInvariant : Obligations.EveryStepKeepsTheInvariant := by
  unfold Obligations.EveryStepKeepsTheInvariant
  intro s t h ht
  cases hs : s.schedule with
  | nil =>
    rw [step_of_nil hs] at ht
    cases ht
    exact inv_engineStep h
  | cons e rest =>
    rw [step_of_cons hs] at ht
    have hrest : Inv { s with schedule := rest } := inv_of_frame h rfl rfl rfl rfl rfl rfl rfl rfl
    exact inv_perform hrest ht

end Sys2Proof.Proofs

/-! PROOFS. A word that decodes is the encoding of its command: its row's mask fixes every field that the command does
not use (30_encoding.md R107, R108). -/

namespace Sys2Proof.Proofs

open Sys2Proof Sys2Proof.Machine

/-! ### A word in terms of its fields (30_encoding.md R102, R105) -/

theorem regBits_toFin (x : BitVec 4) : regBits x.toFin = x := by
  simp [regBits]

/-- Two neighbouring fields are one wider field. -/
theorem append_fields (w : Word) (i j : Nat) {n m : Nat} (h : i = j + m) :
    w.extractLsb' i n ++ w.extractLsb' j m = w.extractLsb' j (n + m) :=
  BitVec.extractLsb'_append_extractLsb'_eq_extractLsb' h

theorem formatR_fields {w : Word} (h : w.extractLsb' 24 8 = 0#8) :
    formatR (fieldD w) (fieldC w) (fieldB w) (fieldA w) (fieldOp w) = w := by
  simp only [formatR, fieldD, fieldC, fieldB, fieldA, fieldOp, regBits_toFin]
  rw [← h, append_fields w 24 20 rfl, append_fields w 20 16 rfl, append_fields w 16 12 rfl, append_fields w 12 8 rfl,
    append_fields w 8 0 rfl, BitVec.extractLsb'_eq_self]

theorem formatK_fields {w : Word} (hd : w.extractLsb' 20 4 = 0#4) (hc : w.extractLsb' 16 4 = 0#4) :
    formatK (fieldK w) (fieldB w) (fieldA w) (fieldOp w) = w := by
  simp only [formatK, fieldK, fieldB, fieldA, fieldOp, regBits_toFin]
  conv_lhs => enter [1, 1, 1, 2]; rw [← hc]
  conv_lhs => enter [1, 1, 1, 1, 2]; rw [← hd]
  rw [append_fields w 24 20 rfl, append_fields w 20 16 rfl, append_fields w 16 12 rfl, append_fields w 12 8 rfl,
    append_fields w 8 0 rfl, BitVec.extractLsb'_eq_self]

theorem formatS_fields {w : Word} (h : w.extractLsb' 12 4 = 0#4) :
    formatS (fieldK w) (fieldV w) (fieldA w) (fieldOp w) = w := by
  simp only [formatS, fieldK, fieldV, fieldA, fieldOp, regBits_toFin]
  rw [← h, append_fields w 24 16 rfl, append_fields w 16 12 rfl, append_fields w 12 8 rfl, append_fields w 8 0 rfl,
    BitVec.extractLsb'_eq_self]

/-! ### What a mask fixes -/

section
variable {w mask : Word} {op : Byte} (h : w &&& mask = 0#24 ++ op)
include h

/-- The OP byte of a word that matches its row. -/
theorem fieldOp_of_mask (hm : mask.extractLsb' 0 8 = BitVec.allOnes 8) : fieldOp w = op := by
  have h' := congrArg (BitVec.extractLsb' 0 8) h
  rwa [BitVec.extractLsb'_and, hm, BitVec.and_allOnes, BitVec.extractLsb'_append_eq_of_add_le (by decide),
    BitVec.extractLsb'_eq_self] at h'

/-- A field above OP that the mask covers is 0. -/
theorem field_zero_of_mask {i n : Nat} (hi : 8 ≤ i) (hm : mask.extractLsb' i n = BitVec.allOnes n) :
    w.extractLsb' i n = 0#n := by
  have h' := congrArg (BitVec.extractLsb' i n) h
  rwa [BitVec.extractLsb'_and, hm, BitVec.and_allOnes, BitVec.extractLsb'_append_eq_of_le hi,
    BitVec.extractLsb'_zero] at h'

end

/-! ### The seven kinds of rows, by the fields they use -/

section
variable {w : Word} {op : Byte}

theorem formatR_of_mask_a (h : w &&& 0xFFFFF0FF#32 = 0#24 ++ op) : formatR 0 0 0 (fieldA w) op = w := by
  have hb : fieldB w = 0 := congrArg BitVec.toFin (field_zero_of_mask h (by decide) (by decide))
  have hc : fieldC w = 0 := congrArg BitVec.toFin (field_zero_of_mask h (by decide) (by decide))
  have hd : fieldD w = 0 := congrArg BitVec.toFin (field_zero_of_mask h (by decide) (by decide))
  have hw := formatR_fields (field_zero_of_mask h (i := 24) (by decide) (by decide))
  rwa [hb, hc, hd, fieldOp_of_mask h (by decide)] at hw

theorem formatR_of_mask_ab (h : w &&& 0xFFFF00FF#32 = 0#24 ++ op) : formatR 0 0 (fieldB w) (fieldA w) op = w := by
  have hc : fieldC w = 0 := congrArg BitVec.toFin (field_zero_of_mask h (by decide) (by decide))
  have hd : fieldD w = 0 := congrArg BitVec.toFin (field_zero_of_mask h (by decide) (by decide))
  have hw := formatR_fields (field_zero_of_mask h (i := 24) (by decide) (by decide))
  rwa [hc, hd, fieldOp_of_mask h (by decide)] at hw

theorem formatR_of_mask_abc (h : w &&& 0xFFF000FF#32 = 0#24 ++ op) :
    formatR 0 (fieldC w) (fieldB w) (fieldA w) op = w := by
  have hd : fieldD w = 0 := congrArg BitVec.toFin (field_zero_of_mask h (by decide) (by decide))
  have hw := formatR_fields (field_zero_of_mask h (i := 24) (by decide) (by decide))
  rwa [hd, fieldOp_of_mask h (by decide)] at hw

theorem formatR_of_mask_abcd (h : w &&& 0xFF0000FF#32 = 0#24 ++ op) :
    formatR (fieldD w) (fieldC w) (fieldB w) (fieldA w) op = w := by
  have hw := formatR_fields (field_zero_of_mask h (i := 24) (by decide) (by decide))
  rwa [fieldOp_of_mask h (by decide)] at hw

theorem formatK_of_mask_ak (h : w &&& 0x00FFF0FF#32 = 0#24 ++ op) : formatK (fieldK w) 0 (fieldA w) op = w := by
  have hb : fieldB w = 0 := congrArg BitVec.toFin (field_zero_of_mask h (by decide) (by decide))
  have hw := formatK_fields (field_zero_of_mask h (by decide) (by decide))
    (field_zero_of_mask h (by decide) (by decide))
  rwa [hb, fieldOp_of_mask h (by decide)] at hw

theorem formatK_of_mask_abk (h : w &&& 0x00FF00FF#32 = 0#24 ++ op) :
    formatK (fieldK w) (fieldB w) (fieldA w) op = w := by
  have hw := formatK_fields (field_zero_of_mask h (by decide) (by decide))
    (field_zero_of_mask h (by decide) (by decide))
  rwa [fieldOp_of_mask h (by decide)] at hw

theorem formatS_of_mask (h : w &&& 0x0000F0FF#32 = 0#24 ++ op) :
    formatS (fieldK w) (fieldV w) (fieldA w) op = w := by
  have hw := formatS_fields (field_zero_of_mask h (by decide) (by decide))
  rwa [fieldOp_of_mask h (by decide)] at hw

end

/-! ### Every row -/

theorem decodeRow_ok {w hit mask : Word} {i j : Instr} (h : decodeRow w hit mask i = .ok j) :
    w &&& mask = hit ∧ i = j := by
  unfold decodeRow at h
  split at h
  next hm => exact ⟨hm, Except.ok.inj h⟩
  next => cases h

theorem encode_of_decode {w : Word} {i : Instr} (h : decode w = .ok i) : encode i = w := by
  unfold decode at h
  split at h
  case h_21 => cases h
  all_goals obtain ⟨hm, rfl⟩ := decodeRow_ok h
  -- the rows of the opcode map in its order, grouped by the fields they use
  case h_1 | h_12 => exact formatK_of_mask_ak hm
  case h_2 => exact formatS_of_mask hm
  case h_3 => exact formatK_of_mask_abk hm
  case h_5 | h_7 | h_10 | h_11 => exact formatR_of_mask_a hm
  case h_4 | h_6 | h_8 | h_9 | h_13 | h_14 | h_15 | h_17 | h_18 => exact formatR_of_mask_ab hm
  case h_19 => exact formatR_of_mask_abc hm
  case h_16 | h_20 => exact formatR_of_mask_abcd hm

end Sys2Proof.Proofs

/-! PROOFS. The control registers as the host reads and writes them (10_state.md section 3), and what changes the
operand registers, RESULT and CFG. -/

namespace Sys2Proof.Proofs

open Sys2Proof Sys2Proof.Machine

/-! ### Register words as numbers -/

theorem toNat_append_add {m n : Nat} (x : BitVec m) (y : BitVec n) :
    (x ++ y).toNat = x.toNat * 2 ^ n + y.toNat := by
  rw [BitVec.toNat_append, ← Nat.shiftLeft_add_eq_or_of_lt y.isLt, Nat.shiftLeft_eq]

theorem toNat_bit (b : Bool) : (bit b).toNat = b.toNat := BitVec.toNat_ofBool b

theorem cfgWord_eq (s : State) : cfgWord s = BitVec.ofNat 32 (0x00011000 + s.wmax.toNat) := by
  apply BitVec.eq_of_toNat_eq
  have := s.wmax.isLt
  simp only [cfgWord, toNat_append_add, BitVec.toNat_ofNat]
  omega

theorem ctrlWord_toNat (s : State) :
    (ctrlWord s).toNat = s.ctrl.donie.toNat + 2 * s.ctrl.errie.toNat + 4 * s.ctrl.progie.toNat := by
  simp only [ctrlWord, toNat_append_add, toNat_bit, BitVec.toNat_ofNat]
  omega

theorem statusWord_toNat (s : State) : (statusWord s).toNat =
    s.busy.toNat + 2 * s.status.done.toNat + 4 * s.status.err.toNat + 8 * s.status.prog.toNat +
      16 * s.status.accerr.toNat + 256 * s.status.errcode.toNat := by
  simp only [statusWord, toNat_append_add, toNat_bit, BitVec.toNat_ofNat]
  omega

/-- A zero-extended field is its number. -/
theorem zero_append_eq_ofNat (m : Nat) {n : Nat} (x : BitVec n) : 0#m ++ x = BitVec.ofNat (m + n) x.toNat := by
  have hx : x.toNat < 2 ^ (m + n) := x.isLt.trans_le (Nat.pow_le_pow_right (by decide) (Nat.le_add_left n m))
  apply BitVec.eq_of_toNat_eq
  rw [toNat_append_add, BitVec.toNat_ofNat, BitVec.toNat_ofNat, Nat.zero_mod, Nat.zero_mul, Nat.zero_add,
    Nat.mod_eq_of_lt hx]

theorem progressWord_eq (s : State) : progressWord s = BitVec.ofNat 32 s.progress.toNat :=
  zero_append_eq_ofNat 16 s.progress

theorem rwidthWord_eq (s : State) (i : Reg) : rwidthWord s i = BitVec.ofNat 32 (s.reg i).width.toNat :=
  zero_append_eq_ofNat 24 (s.reg i).width

/-- BUSY is the sequencer's state (50_command_cycle.md R251). -/
theorem busy_iff (s : State) : s.busy = true ↔ s.seq ≠ .idle := by
  cases hs : s.seq <;> simp [State.busy, hs]

/-! ### Accesses of the control region -/

/-- A control word takes aligned 32-bit accesses, in EXEC too (20_memory.md R72). -/
theorem step_readControl (s : State) (rest : List Event) {off : Nat} (hlow : off < 0x1000) (halign : off % 4 = 0) :
    step { s with schedule := .mmioRead off 4 :: rest } =
      .next { s with schedule := rest, hostRead := some (readControl s off) } := by
  have hc : inControl off = true := decide_eq_true hlow
  have hblock : off < Config.blockSize := hlow.trans (by decide)
  rw [step_cons, perform, hostReadAt, if_pos hblock, State.mmioRead,
    if_neg (by simp [readRefused, wellFormedAccess, hc, halign]), readData, if_pos hc]
  rfl

theorem step_writeControl (s : State) (v : Word) (rest : List Event) {off : Nat} (hlow : off < 0x1000)
    (halign : off % 4 = 0) (hcmd : off ≠ cmdOffset) :
    step { s with schedule := .mmioWrite off 4 v :: rest } =
      .next (writeControl { s with schedule := rest } off v) := by
  have hc : inControl off = true := decide_eq_true hlow
  have hblock : off < Config.blockSize := hlow.trans (by decide)
  rw [step_cons, perform, hostWriteAt, if_pos hblock, mmioWrite,
    if_neg (by simp [writeRefused, wellFormedAccess, hc, halign, hcmd]), if_neg hcmd, State.store, if_pos hc]

theorem step_writeCmd_of_idle (s : State) (h : s.busy = false) (w : Word) (rest : List Event) :
    step { s with schedule := .mmioWrite 0x00C 4 w :: rest } = runWord w { s with schedule := rest } := by
  have hb : State.busy { s with schedule := rest } = false := h
  rw [step_cons, perform, hostWriteAt, if_pos (by decide), mmioWrite, writeRefused, hb]
  rfl

theorem step_writeCmd_of_busy (s : State) (h : s.busy = true) (w : Word) (rest : List Event) :
    step { s with schedule := .mmioWrite 0x00C 4 w :: rest } =
      .next (State.refuseAccess { s with schedule := rest }) := by
  have hb : State.busy { s with schedule := rest } = true := h
  rw [step_cons, perform, hostWriteAt, if_pos (by decide), mmioWrite, writeRefused, hb]
  rfl

/-! ### Reads (10_state.md section 3) -/

/-- RWIDTH[i] is the word at `0x040 + 4 i` (20_memory.md R66). -/
theorem readControl_rwidth (s : State) (i : Reg) : readControl s (0x040 + 4 * i.val) = rwidthWord s i := by
  have hne (c : Nat) (hc : c < 0x040) : 0x040 + 4 * i.val ≠ c := by omega
  have hindex : Fin.ofNat 16 ((0x040 + 4 * i.val - 0x040) / 4) = i := Fin.ext (by rw [Fin.val_ofNat]; omega)
  rw [readControl, if_neg (hne 0x000 (by decide)), if_neg (hne 0x004 (by decide)), if_neg (hne 0x008 (by decide)),
    if_neg (hne cmdOffset (by decide)), if_neg (hne 0x010 (by decide)), if_neg (hne 0x014 (by decide)),
    if_pos (by omega), hindex]

/-- Settles O39: STATUS is a control word, and its bits are its fields. -/
theorem statusReadsItsFields : Obligations.StatusReadsItsFields := by
  unfold Obligations.StatusReadsItsFields
  intro s rest
  exact ⟨statusWord s, step_readControl s rest (by decide) (by decide), statusWord_toNat s, busy_iff s⟩

/-- Settles O41: each is a control word, and it shows its field. -/
theorem resultProgressAndWidthsAreReadable : Obligations.ResultProgressAndWidthsAreReadable := by
  unfold Obligations.ResultProgressAndWidthsAreReadable
  intro s i rest
  refine ⟨step_readControl s rest (by decide) (by decide), ?progress, ?rwidth⟩
  case progress =>
    rw [← progressWord_eq]
    exact step_readControl s rest (by decide) (by decide)
  case rwidth =>
    rw [step_readControl s rest (by omega) (by omega), readControl_rwidth, rwidthWord_eq]

/-! ### Writes to CTRL and STATUS -/

/-- Settles O38: CTRL takes the three low bits of a write, and shows them. -/
theorem ctrlHoldsThreeEnables : Obligations.CtrlHoldsThreeEnables := by
  unfold Obligations.CtrlHoldsThreeEnables
  refine ⟨rfl, fun s v rest => ⟨?write, ctrlWord s, ?read, ctrlWord_toNat s⟩⟩
  case write => exact step_writeControl s v rest (by decide) (by decide) (by decide)
  case read => exact step_readControl s rest (by decide) (by decide)

/-- A flag after a write of `c` to its bit (10_state.md R30). -/
theorem and_not_eq_ite (flag c : Bool) : (flag && !c) = if c then false else flag := by
  cases c <;> simp

/-- Settles O40: a write to STATUS acknowledges. -/
theorem statusWriteOneClears : Obligations.StatusWriteOneClears := by
  unfold Obligations.StatusWriteOneClears
  intro s v rest
  refine ⟨⟨_, step_writeControl s v rest (by decide) (by decide) (by decide), rfl, ?_, ?_, rfl, ?_, ?_⟩,
    _, step_readControl s rest (by decide) (by decide)⟩ <;>
  exact and_not_eq_ite _ _

/-! ### CMD (10_state.md R31) -/

theorem issueWord_cmd {s : State} (h : s.busy = false) (x : Word) (c : Except CmdError Latched) :
    (s.issueWord x c).cmd = x := by
  cases c with
  | error e => rw [issueWord_of_error h, raiseCmdError_cmd, beginIssue_cmd]
  | ok l => rw [issueWord_of_ok h, startExec_cmd, beginIssue_cmd]

/-- CMD keeps the issued word itself: one that decodes is its command's encoding (log 9). -/
theorem runWord_cmd {s : State} (h : s.busy = false) (w : Word) : ∃ t, runWord w s = .next t ∧ t.cmd = w := by
  cases hw : decode w with
  | error e => exact ⟨_, runWord_of_error hw s, issueWord_cmd h w _⟩
  | ok i =>
    obtain ⟨c, hc⟩ := exec_next i s
    refine ⟨_, (runWord_of_ok hw s).trans hc, ?_⟩
    rw [issueWord_cmd h, encode_of_decode hw]

/-- Settles O7: a CMD write while idle is the issue of its word, which is kept; while BUSY it is refused. -/
theorem cmdRegisterKeepsLastIssuedWord : Obligations.CmdRegisterKeepsLastIssuedWord := by
  unfold Obligations.CmdRegisterKeepsLastIssuedWord
  refine ⟨rfl, fun s w rest => ⟨fun hidle => ?idle, fun hbusy => ?busy, ?read⟩⟩
  case idle =>
    obtain ⟨t, ht, hcmd⟩ := runWord_cmd (s := { s with schedule := rest }) hidle w
    exact ⟨t, (step_writeCmd_of_idle s hidle w rest).trans ht, hcmd, ht⟩
  case busy => exact step_writeCmd_of_busy s hbusy w rest
  case read => exact step_readControl s rest (by decide) (by decide)

/-! ### CFG and the reset values -/

theorem effect_wmax {s t : State} {e : Event} (h : Effect s e t) : t.wmax = s.wmax := by
  cases h with
  | issued e x c idle =>
    obtain ⟨hwmax, -⟩ := issueWord_frame s x c
    exact hwmax
  | engineStepped =>
    rcases engineStep_cases s with ⟨-, ht⟩ | ⟨l, k, rest, -, -, ht⟩ | ⟨l, -, -, ht⟩ <;> rw [ht] <;> rfl
  | readDone | readRefused | writeRefused | ctrlSet | acknowledged | ignored | windowWritten | wasReset => rfl

/-- WMAX is a constant of every run (00_scope.md R6). -/
theorem step_wmax {s t : State} (h : step s = .next t) : t.wmax = s.wmax := by
  rcases step_effect h with ⟨-, rfl⟩ | ⟨e, rest, -, he⟩
  · exact effect_wmax .engineStepped
  · exact (effect_wmax he :)

theorem step_cfgWord {s t : State} (h : step s = .next t) : cfgWord t = cfgWord s := by
  rw [cfgWord_eq, cfgWord_eq, step_wmax h]

/-- Settles O37: CFG shows WMAX, which no step changes. -/
theorem cfgIsAConstantIdentification : Obligations.CfgIsAConstantIdentification := by
  unfold Obligations.CfgIsAConstantIdentification
  refine ⟨fun s v rest => ⟨?read, ?write⟩, fun s t => step_cfgWord⟩
  case read =>
    rw [← cfgWord_eq]
    exact step_readControl s rest (by decide) (by decide)
  case write => exact step_writeControl s v rest (by decide) (by decide) (by decide)

theorem reset_reg (r : Reg) : State.reset.reg r = ⟨0#8, 0⟩ := by
  simp [State.reg, State.reset, State.resetFor]

/-- Settles O50: the fields of the reset state compute, and CFG is WMAX, which no step changes. -/
theorem resetValues : Obligations.ResetValues := by
  unfold Obligations.ResetValues
  exact ⟨reset_reg, cfgWord_eq _, rfl, rfl, rfl, rfl, rfl, rfl, rfl, fun s t => step_cfgWord⟩

/-! ### What changes the operand registers and RESULT -/

theorem engineStep_regs (s : State) : s.engineStep.regs = s.regs ∨ ∃ l, s.seq = .exec l ∧ l.pending = [] := by
  rcases engineStep_cases s with ⟨-, ht⟩ | ⟨l, k, rest, -, -, ht⟩ | ⟨l, hs, hp, -⟩
  · exact .inl (by rw [ht])
  · exact .inl (by rw [ht, emitProgress_regs])
  · exact .inr ⟨l, hs, hp⟩

theorem engineStep_result (s : State) : s.engineStep.result = s.result ∨
    ∃ l v, s.seq = .exec l ∧ l.pending = [] ∧ l.result = some v ∧ s.engineStep.result = v := by
  rcases engineStep_cases s with ⟨-, ht⟩ | ⟨l, k, rest, -, -, ht⟩ | ⟨l, hs, hp, ht⟩
  · exact .inl (by rw [ht])
  · exact .inl (by rw [ht, emitProgress_result])
  · cases hv : l.result with
    | none => exact .inl (by rw [ht, commit_result, hv, Option.getD_none])
    | some v => exact .inr ⟨l, v, hs, hp, hv, by rw [ht, commit_result, hv, Option.getD_some]⟩

/-- An event leaves the operand registers alone, or is an engine step, a window write while idle, or reset. -/
theorem effect_regs {s t : State} {e : Event} (h : Effect s e t) :
    t.regs = s.regs ∨ (e = .engine ∧ t = s.engineStep) ∨
    (s.busy = false ∧ ∃ off n v, (e = .mmioWrite off n v ∨ e = .memWrite (Config.base + off) n v) ∧
      0x1000 ≤ off ∧ off < 0x2000) ∨ e = .reset := by
  cases h with
  | issued e x c idle =>
    obtain ⟨-, hregs, -⟩ := issueWord_frame s x c
    exact .inl hregs
  | windowWritten e off n v idle low high he => exact .inr (.inr (.inl ⟨idle, off, n, v, he, low, high⟩))
  | engineStepped => exact .inr (.inl ⟨rfl, rfl⟩)
  | wasReset => exact .inr (.inr (.inr rfl))
  | readDone | readRefused | writeRefused | ctrlSet | acknowledged | ignored => exact .inl rfl

/-- An event leaves RESULT alone, or is an engine step or reset. -/
theorem effect_result {s t : State} {e : Event} (h : Effect s e t) :
    t.result = s.result ∨ (e = .engine ∧ t = s.engineStep) ∨ e = .reset := by
  cases h with
  | issued e x c idle =>
    obtain ⟨-, -, -, hresult, -⟩ := issueWord_frame s x c
    exact .inl hresult
  | engineStepped => exact .inr (.inl ⟨rfl, rfl⟩)
  | wasReset => exact .inr (.inr rfl)
  | readDone | readRefused | writeRefused | ctrlSet | acknowledged | ignored | windowWritten => exact .inl rfl

/-- Settles O52, by the effects of an event: of these, three reach the operand registers. -/
theorem onlyCommitWindowOrResetChangesRegisters : Obligations.OnlyCommitWindowOrResetChangesRegisters := by
  unfold Obligations.OnlyCommitWindowOrResetChangesRegisters
  intro s t h hne
  rcases step_effect h with ⟨hnil, rfl⟩ | ⟨e, rest, hs, he⟩
  · obtain ⟨l, hl, hp⟩ := (engineStep_regs s).resolve_left hne
    exact .inl ⟨l, hl, hp, .inl hnil⟩
  · rcases effect_regs he with hkept | ⟨rfl, rfl⟩ | ⟨idle, off, n, v, hwrite, hrange⟩ | rfl
    · exact absurd hkept hne
    · obtain ⟨l, hl, hp⟩ := (engineStep_regs _).resolve_left hne
      exact .inl ⟨l, hl, hp, .inr ⟨rest, hs⟩⟩
    · refine .inr (.inl ⟨idle, off, n, v, rest, ?_, hrange⟩)
      rcases hwrite with rfl | rfl
      · exact .inl hs
      · exact .inr hs
    · exact .inr (.inr ⟨rest, hs⟩)

/-- Settles O53, by the effects of an event: an issue and a host access leave RESULT alone. -/
theorem onlyPredicateCommitsChangeResult : Obligations.OnlyPredicateCommitsChangeResult := by
  unfold Obligations.OnlyPredicateCommitsChangeResult
  intro s t h hne
  rcases step_effect h with ⟨hnil, rfl⟩ | ⟨e, rest, hs, he⟩
  · obtain ⟨l, v, hl, hp, hv, ht⟩ := (engineStep_result s).resolve_left hne
    exact .inl ⟨l, v, hl, hp, hv, ht, .inl hnil⟩
  · rcases effect_result he with hkept | ⟨rfl, rfl⟩ | rfl
    · exact absurd hkept hne
    · obtain ⟨l, v, hl, hp, hv, ht⟩ := (engineStep_result _).resolve_left hne
      exact .inl ⟨l, v, hl, hp, hv, ht, .inr ⟨rest, hs⟩⟩
    · exact .inr ⟨rest, hs⟩

end Sys2Proof.Proofs

/-! PROOFS. A command that creates no FixedInt keeps every width tag (10_state.md R22). -/

namespace Sys2Proof.Proofs

open Sys2Proof Sys2Proof.Machine

/-- The width tags are these, and a running command would write no others. -/
def TagsKept (tags : Reg → Byte) (s : State) : Prop :=
  (∀ r, (s.reg r).width = tags r) ∧ ∀ l, s.seq = .exec l → ∀ p ∈ l.writes, p.2.width = tags p.1

section
variable {tags : Reg → Byte} {s : State} (h : TagsKept tags s)
include h

theorem tagsKept_commit {l : Latched} (hs : s.seq = .exec l) : TagsKept tags (s.commit l) := by
  obtain ⟨hregs, hwrites⟩ := h
  refine ⟨fun r => ?_, nofun⟩
  rw [State.reg, commit_regs]
  rcases writeRegs_cases s.regs l.writes r with hr | ⟨p, hp, rfl, hr⟩
  · rw [hr]
    exact hregs r
  · rw [hr]
    exact hwrites l hs p hp

theorem tagsKept_emitProgress {l : Latched} (hs : s.seq = .exec l) (k : Nat) (rest : List Nat) :
    TagsKept tags (s.emitProgress l k rest) := by
  obtain ⟨hregs, hwrites⟩ := h
  refine ⟨hregs, ?_⟩
  rintro _ ⟨⟩
  exact hwrites l hs

theorem tagsKept_engineStep : TagsKept tags s.engineStep := by
  rcases engineStep_cases s with ⟨-, ht⟩ | ⟨l, k, rest, hs, -, ht⟩ | ⟨l, hs, -, ht⟩
  · rwa [ht]
  · rw [ht]
    exact tagsKept_emitProgress h hs k rest
  · rw [ht]
    exact tagsKept_commit h hs

end

theorem tagsKept_engineRun {tags : Reg → Byte} {s : State} (h : TagsKept tags s) (n : Nat) :
    TagsKept tags (engineRun n s) := by
  induction n generalizing s with
  | zero => exact h
  | succ n ih => exact ih (tagsKept_engineStep h)

/-- A command that sets no width tag of its own writes its destination at the destination's width. -/
theorem writesOf_width_kept {s : State} {i : Instr} (hi : setsWidthTag i = false) {p : Reg × Byte}
    (hp : p ∈ writesOf s i) : p.2 = (s.reg p.1).width := by
  cases i with
  | create _ _ | small _ _ _ | widen _ _ _ | divrem _ _ _ _ | powmod _ _ _ _ => cases hi
  | eq _ _ | nz _ | gt _ _ | ge _ _ | sdc _ | even _ => cases hp
  | assign _ _ | clear _ | shl _ _ | add _ _ | sub _ _ | mul _ _ | div _ _ | mod _ _ | mulmod _ _ _ =>
    rw [List.mem_singleton.1 hp]

theorem tagsKept_exec {i : Instr} {s m : State} (idle : s.busy = false) (hi : setsWidthTag i = false)
    (hm : exec i s = .next m) : TagsKept (fun r => (s.reg r).width) m := by
  obtain ⟨c, hc, hl⟩ := exec_latches i s
  rw [hc, issue_next] at hm
  cases hm
  cases c with
  | error e =>
    rw [issueWord_of_error idle]
    refine ⟨fun r => rfl, fun l hs => ?_⟩
    exact nomatch (seq_idle_of_not_busy idle).symm.trans hs
  | ok l =>
    rw [issueWord_of_ok idle]
    refine ⟨fun r => rfl, ?_⟩
    rintro _ ⟨⟩ p hp
    have hmem : (p.1, p.2.width) ∈ writesOf s i := (hl l rfl).destinations ▸ List.mem_map_of_mem hp
    exact writesOf_width_kept hi hmem

/-- Settles O36: the tags are kept at issue and by every engine step after it. -/
theorem widthTagsKeptByOtherCommands : Obligations.WidthTagsKeptByOtherCommands := by
  unfold Obligations.WidthTagsKeptByOtherCommands
  intro i s m n r idle hi hm
  obtain ⟨hregs, -⟩ := tagsKept_engineRun (tagsKept_exec idle hi hm) n
  exact hregs r

end Sys2Proof.Proofs

/-! PROOFS. Host accesses of the register block: which are refused and with what effect, what the reserved and the
read-only words do, and which accesses stop the machine (20_memory.md R61, R67, R72 to R75). -/

namespace Sys2Proof.Proofs

open Sys2Proof Sys2Proof.Machine

/-! ### Which accesses are refused (20_memory.md R74) -/

theorem inControl_iff (off : Nat) : inControl off = true ↔ off < 0x1000 := decide_eq_true_iff

/-- The shape R72 asks of an access to the control region. -/
theorem wellFormedAccess_of_control {off : Nat} (h : off < 0x1000) (n : Nat) :
    wellFormedAccess off n = true ↔ n = 4 ∧ off % 4 = 0 := by
  rw [wellFormedAccess, if_pos ((inControl_iff off).2 h), Bool.and_eq_true, beq_iff_eq, beq_iff_eq]

/-- The shape R73 asks of an access to the window. -/
theorem wellFormedAccess_of_window {off : Nat} (h : 0x1000 ≤ off) (n : Nat) :
    wellFormedAccess off n = true ↔ (n = 1 ∨ n = 2 ∨ n = 4) ∧ off % n = 0 := by
  have hc : ¬ inControl off = true := mt (inControl_iff off).1 h.not_gt
  simp only [wellFormedAccess, if_neg hc, Bool.and_eq_true, Bool.or_eq_true, beq_iff_eq, or_assoc]

section
variable (s : State) (off n : Nat)

/-- The model's test for a refused read is R74 (b) to (d). -/
theorem readRefused_iff : readRefused s off n = true ↔ RefusedRead s off n := by
  rw [readRefused, RefusedRead, Bool.or_eq_true, Bool.not_eq_true', ← Bool.not_eq_true]
  rcases Nat.lt_or_ge off 0x1000 with h | h
  · rw [wellFormedAccess_of_control h, (inControl_iff off).2 h]
    simp [h, h.not_ge]
  · rw [wellFormedAccess_of_window h, Bool.eq_false_iff.2 (mt (inControl_iff off).1 h.not_gt)]
    simp [h, h.not_gt, or_comm]

/-- The model's test for a refused write is R74 (a) to (d). -/
theorem writeRefused_iff : writeRefused s off n = true ↔ RefusedWrite s off n := by
  rw [writeRefused, RefusedWrite, Bool.or_eq_true, Bool.not_eq_true', ← Bool.not_eq_true]
  rcases Nat.lt_or_ge off 0x1000 with h | h
  · rw [wellFormedAccess_of_control h, (inControl_iff off).2 h]
    simp [h, h.not_ge, cmdOffset, or_comm, and_comm]
  · have hcmd : off ≠ 0x00C := by omega
    rw [wellFormedAccess_of_window h, Bool.eq_false_iff.2 (mt (inControl_iff off).1 h.not_gt)]
    simp [h, h.not_gt, hcmd, or_comm]

end

/-! ### The step of an access in the block -/

section
variable (s : State) (rest : List Event) {off n : Nat} (h : off < 0x2000)
include h

theorem step_mmioRead_of_refused (hr : RefusedRead s off n) :
    step { s with schedule := .mmioRead off n :: rest } =
      .next { State.refuseAccess { s with schedule := rest } with hostRead := some 0#32 } := by
  have hblock : off < Config.blockSize := h
  have href : readRefused { s with schedule := rest } off n = true := (readRefused_iff _ off n).2 hr
  rw [step_cons, perform, hostReadAt, if_pos hblock, State.mmioRead, if_pos href]

theorem step_mmioRead_of_performed (hr : ¬ RefusedRead s off n) :
    step { s with schedule := .mmioRead off n :: rest } =
      .next { s with schedule := rest, hostRead := some (readData { s with schedule := rest } off n) } := by
  have hblock : off < Config.blockSize := h
  have href : ¬ readRefused { s with schedule := rest } off n = true := mt (readRefused_iff _ off n).1 hr
  rw [step_cons, perform, hostReadAt, if_pos hblock, State.mmioRead, if_neg href]

theorem step_mmioWrite_of_refused (v : Word) (hw : RefusedWrite s off n) :
    step { s with schedule := .mmioWrite off n v :: rest } =
      .next (State.refuseAccess { s with schedule := rest }) := by
  have hblock : off < Config.blockSize := h
  have href : writeRefused { s with schedule := rest } off n = true := (writeRefused_iff _ off n).2 hw
  rw [step_cons, perform, hostWriteAt, if_pos hblock, mmioWrite, if_pos href]

/-- A performed write is the issue of a command word at CMD and a store elsewhere (20_memory.md R75). -/
theorem step_mmioWrite_of_performed (v : Word) (hw : ¬ RefusedWrite s off n) :
    step { s with schedule := .mmioWrite off n v :: rest } =
      if off = cmdOffset then runWord v { s with schedule := rest }
      else .next (State.store { s with schedule := rest } off n v) := by
  have hblock : off < Config.blockSize := h
  have href : ¬ writeRefused { s with schedule := rest } off n = true := mt (writeRefused_iff _ off n).1 hw
  rw [step_cons, perform, hostWriteAt, if_pos hblock, mmioWrite, if_neg href]

end

/-! ### Reserved and read-only words (20_memory.md R67) -/

theorem readControl_of_reserved (s : State) {off : Nat} (h : ReservedWord off) : readControl s off = 0#32 := by
  obtain ⟨-, hrange⟩ := h
  have hne (c : Nat) (hc : c < 0x018) : off ≠ c := by omega
  rw [readControl, if_neg (hne 0x000 (by decide)), if_neg (hne 0x004 (by decide)), if_neg (hne 0x008 (by decide)),
    if_neg (hne cmdOffset (by decide)), if_neg (hne 0x010 (by decide)), if_neg (hne 0x014 (by decide)),
    if_neg (by omega)]

/-- Only CTRL and STATUS take a write. -/
theorem writeControl_of_ne (s : State) {off : Nat} (v : Word) (hctrl : off ≠ 0x004) (hstatus : off ≠ 0x008) :
    writeControl s off v = s := by
  rw [writeControl, if_neg hctrl, if_neg hstatus]

/-- A reserved or read-only word is an aligned word of the control region, and is none of the three that take a
write. -/
theorem offset_of_reserved_or_readOnly {off : Nat} (h : ReservedWord off ∨ ReadOnlyWord off) :
    off < 0x1000 ∧ off % 4 = 0 ∧ off ≠ 0x004 ∧ off ≠ 0x008 ∧ off ≠ 0x00C := by
  unfold ReservedWord ReadOnlyWord at h
  omega

/-- Settles O42: these words are aligned words of the control region other than CTRL, STATUS and CMD. -/
theorem reservedAndReadOnlyWordsIgnoreWrites : Obligations.ReservedAndReadOnlyWordsIgnoreWrites := by
  unfold Obligations.ReservedAndReadOnlyWordsIgnoreWrites
  refine fun s off v rest => ⟨fun h => ?write, fun h => ?read⟩
  case write =>
    obtain ⟨hlow, halign, hctrl, hstatus, hcmd⟩ := offset_of_reserved_or_readOnly h
    rw [step_writeControl s v rest hlow halign hcmd, writeControl_of_ne _ v hctrl hstatus]
  case read =>
    obtain ⟨hlow, halign, -⟩ := offset_of_reserved_or_readOnly (.inl h)
    rw [step_readControl s rest hlow halign, readControl_of_reserved s h]

/-! ### ACCERR (20_memory.md R74) -/

/-- An issue while idle keeps ACCERR (50_command_cycle.md R253). -/
theorem issueWord_accerr {s : State} (idle : s.busy = false) (x : Word) (c : Except CmdError Latched) :
    (s.issueWord x c).status.accerr = s.status.accerr := by
  cases c with
  | error e => rw [issueWord_of_error idle, raiseCmdError_status, beginIssue_status]
  | ok l => rw [issueWord_of_ok idle, startExec_status, beginIssue_status]

/-- A store clears ACCERR by its bit of STATUS, and otherwise keeps it (10_state.md R30). -/
theorem store_accerr (s : State) (off n : Nat) (v : Word) : (s.store off n v).status.accerr =
    if off = 0x008 ∧ v.getLsbD 4 then false else s.status.accerr := by
  by_cases hstatus : off = 0x008
  · subst hstatus
    have hstore : s.store 0x008 n v = s.acknowledge v := rfl
    rw [hstore, acknowledge_status]
    simp only [clearStatus, and_not_eq_ite, true_and]
  · rw [if_neg fun ⟨h, _⟩ => hstatus h, State.store, writeControl, if_neg hstatus]
    split_ifs <;> rfl

/-- A performed write sets no ACCERR. -/
theorem step_mmioWrite_accerr (s : State) (rest : List Event) {off n : Nat} (v : Word) (h : off < 0x2000)
    (hw : ¬ RefusedWrite s off n) : ∃ t, step { s with schedule := .mmioWrite off n v :: rest } = .next t ∧
      t.status.accerr = if off = 0x008 ∧ v.getLsbD 4 then false else s.status.accerr := by
  rw [step_mmioWrite_of_performed s rest h v hw]
  by_cases hcmd : off = cmdOffset
  · have idle : s.busy = false := Bool.eq_false_iff.2 fun hb => hw (.inl ⟨hcmd, hb⟩)
    obtain ⟨x, c, hx⟩ := runWord_next v { s with schedule := rest }
    rw [if_pos hcmd, if_neg fun ⟨h8, _⟩ => absurd (hcmd.symm.trans h8) (by decide)]
    exact ⟨_, hx, issueWord_accerr (s := { s with schedule := rest }) idle x c⟩
  · rw [if_neg hcmd]
    exact ⟨_, rfl, store_accerr { s with schedule := rest } off n v⟩

/-- Settles O43: the model's two tests are R74 (a) to (d), and a performed access sets no ACCERR. -/
theorem refusedAccessesAreExactlyThese : Obligations.RefusedAccessesAreExactlyThese := by
  unfold Obligations.RefusedAccessesAreExactlyThese
  exact fun s off n v rest h =>
    ⟨step_mmioWrite_of_refused s rest h v, step_mmioRead_of_refused s rest h,
      fun hr => ⟨_, step_mmioRead_of_performed s rest h hr⟩, step_mmioWrite_accerr s rest v h⟩

/-! ### Accesses outside the block (20_memory.md R61) -/

theorem exists_offset_of_inBlock {addr : Nat} (h : Config.base ≤ addr ∧ addr < Config.base + 0x2000) :
    ∃ off, off < 0x2000 ∧ addr = Config.base + off :=
  ⟨addr - Config.base, by omega, by omega⟩

/-- An event that is no access outside the block is performed. -/
theorem perform_of_inBlock (s : State) {e : Event} (h : InBlock e) : ∃ t, perform runWord s e = .next t := by
  have read {off : Nat} (n : Nat) (hoff : off < 0x2000) : ∃ t, perform runWord s (.mmioRead off n) = .next t :=
    (hostReadAt_next s (.mmioRead off n) off n hoff).imp fun _ ht => ht.1
  have write {off : Nat} (n : Nat) (v : Word) (hoff : off < 0x2000) :
      ∃ t, perform runWord s (.mmioWrite off n v) = .next t :=
    (hostWriteAt_next s (.mmioWrite off n v) off n v hoff (.inl rfl)).imp fun _ ht => ht.1
  cases e with
  | mmioRead off n => exact read n h
  | mmioWrite off n v => exact write n v h
  | memRead addr n =>
    obtain ⟨off, hoff, rfl⟩ := exists_offset_of_inBlock h
    rw [perform_memRead_base _ _ _ hoff]
    exact read n hoff
  | memWrite addr n v =>
    obtain ⟨off, hoff, rfl⟩ := exists_offset_of_inBlock h
    rw [perform_memWrite_base _ _ _ _ hoff]
    exact write n v hoff
  | engine | reset => exact ⟨_, rfl⟩

/-- An access outside the block faults (log 10). -/
theorem perform_of_not_inBlock (s : State) {e : Event} (h : ¬ InBlock e) :
    perform runWord s e = .fault .outsideBlock := by
  cases e with
  | mmioRead off n => exact if_neg h
  | mmioWrite off n v => exact if_neg h
  | memRead addr n | memWrite addr n v =>
    have hnone : blockOffset addr = none := if_neg h
    rw [perform, hnone]
  | engine | reset => exact absurd trivial h

/-- Settles O48: an engine step and a performed event answer a next state, and the events not performed are the
accesses outside the block. -/
theorem onlyAccessesOutsideTheBlockStop : Obligations.OnlyAccessesOutsideTheBlockStop := by
  unfold Obligations.OnlyAccessesOutsideTheBlockStop
  refine fun s => ⟨?stops, fun hin => ?continues⟩
  case stops =>
    rintro ⟨e, rest, hs, hout⟩
    rw [step_of_cons hs, perform_of_not_inBlock _ hout]
  case continues =>
    cases hs : s.schedule with
    | nil => exact ⟨_, step_of_nil hs⟩
    | cons e rest =>
      rw [step_of_cons hs]
      exact perform_of_inBlock _ (hin e rest hs)

end Sys2Proof.Proofs

/-! PROOFS. The data window: a read is a slice of the register's value, and a write stores its bytes below the width
(20_memory.md R68 to R71, R78). -/

namespace Sys2Proof.Proofs

open Sys2Proof Sys2Proof.Machine

/-! ### The place of an access in the window (20_memory.md R68) -/

section
variable (i : Reg) {j : Nat} (hj : j < 256)
include hj

theorem windowReg_slot : windowReg (0x1000 + 0x100 * i.val + j) = i :=
  Fin.ext (by rw [windowReg, Fin.val_ofNat]; omega)

theorem windowByte_slot : windowByte (0x1000 + 0x100 * i.val + j) = j := by
  rw [windowByte]
  omega

/-- A slot starts at a multiple of every access width, so an access is aligned in the block as in its slot. -/
theorem slot_in_window {n : Nat} (hn : n = 1 ∨ n = 2 ∨ n = 4) (halign : j % n = 0) :
    0x1000 ≤ 0x1000 + 0x100 * i.val + j ∧ 0x1000 + 0x100 * i.val + j < 0x2000 ∧
      (0x1000 + 0x100 * i.val + j) % n = 0 := by
  rcases hn with rfl | rfl | rfl <;> omega

end

section
variable {s : State} (idle : s.busy = false) (i : Reg) (rest : List Event) {j n : Nat} (hj : j < 256)
  (hn : n = 1 ∨ n = 2 ∨ n = 4) (halign : j % n = 0)
include idle hj hn halign

/-- An aligned window read while idle is performed. -/
theorem step_readWindow : step { s with schedule := .mmioRead (0x1000 + 0x100 * i.val + j) n :: rest } =
    .next { s with schedule := rest, hostRead := some (BitVec.ofNat 32 (readLanes (s.reg i) j n)) } := by
  obtain ⟨hlow, hhigh, hmod⟩ := slot_in_window i hj hn halign
  have hr : ¬ RefusedRead s (0x1000 + 0x100 * i.val + j) n := by
    simp [RefusedRead, idle, hlow.not_gt, hn, hmod]
  rw [step_mmioRead_of_performed s rest hhigh hr, readData, if_neg (mt (inControl_iff _).1 hlow.not_gt), readWindow,
    windowReg_slot i hj, windowByte_slot i hj]
  rfl

/-- An aligned window write while idle is performed. -/
theorem step_writeWindow (v : Word) :
    step { s with schedule := .mmioWrite (0x1000 + 0x100 * i.val + j) n v :: rest } =
      .next (writeWindow { s with schedule := rest } (0x1000 + 0x100 * i.val + j) n v) := by
  obtain ⟨hlow, hhigh, hmod⟩ := slot_in_window i hj hn halign
  have hcmd : 0x1000 + 0x100 * i.val + j ≠ cmdOffset := Nat.ne_of_gt (Nat.lt_of_lt_of_le (by decide) hlow)
  have hw : ¬ RefusedWrite s (0x1000 + 0x100 * i.val + j) n := by
    simp [RefusedWrite, idle, hlow.not_gt, hn, hmod]
  rw [step_mmioWrite_of_performed s rest hhigh v hw, if_neg hcmd, State.store,
    if_neg (mt (inControl_iff _).1 hlow.not_gt)]

end

/-! ### Reads are slices of the value (20_memory.md R69, R71, R78) -/

/-- A digit of a number is among its `n` low digits, for a place below `n`. -/
theorem mod_pow_div_pow_mod (b x : Nat) {k n : Nat} (h : k < n) : x % b ^ n / b ^ k % b = x / b ^ k % b := by
  rw [← pow_mul_pow_sub b h.le, Nat.mod_mul_right_div_self,
    Nat.mod_mod_of_dvd _ (dvd_pow_self b (Nat.sub_ne_zero_of_lt h))]

/-- A window byte is a byte of the value, which has none at and beyond the width. -/
theorem readByte_eq_byteOf_val (f : FixedInt) (j : Nat) : readByte f j = byteOf f.val j := by
  by_cases h : j < f.width.toNat
  · rw [readByte, if_pos h, byteOf, byteOf, FixedInt.val, modulus, mod_pow_div_pow_mod 256 f.bytes h]
  · have hval : f.val < 256 ^ j := (val_lt f).trans_le (modulus_mono (Nat.le_of_not_lt h))
    rw [readByte, if_neg h, byteOf, Nat.div_eq_of_lt hval]

theorem readLanes_eq_slice (f : FixedInt) (j n : Nat) : readLanes f j n = f.val / 256 ^ j % 256 ^ n := by
  induction n with
  | zero => rw [readLanes, pow_zero, Nat.mod_one]
  | succ n ih =>
    rw [readLanes, ih, readByte_eq_byteOf_val, byteOf, Nat.mod_pow_succ, Nat.div_div_eq_div_mul, ← pow_add, mul_comm]

/-- Lanes of `k` bytes at a multiple of `k` are the `8 k` bits at the same multiple of `8 k`. -/
theorem readLanes_eq_bits (f : FixedInt) (k m : Nat) :
    readLanes f (k * m) k = f.val / 2 ^ (8 * k * m) % 2 ^ (8 * k) := by
  rw [readLanes_eq_slice, mul_assoc, pow_mul 2 8, pow_mul 2 8]
  rfl

/-- A digit of a 32-bit word of a number is the number's digit at that place of that word. -/
theorem digit_of_word (v d : Nat) : digit v d = v / 2 ^ (32 * (d / 8)) % 2 ^ 32 / 16 ^ (d % 8) % 16 := by
  have hplace : 2 ^ (32 * (d / 8)) * 16 ^ (d % 8) = 16 ^ d := by
    rw [pow_mul, show 2 ^ 32 = 16 ^ 8 from rfl, ← pow_mul, ← pow_add, Nat.div_add_mod]
  rw [show 2 ^ 32 = 16 ^ 8 from rfl, mod_pow_div_pow_mod 16 _ (Nat.mod_lt d (by decide)), Nat.div_div_eq_div_mul,
    hplace, digit]

/-- Settles O45: the lanes of an aligned read are a slice of the value, and so are a word's digits. -/
theorem windowWordsAreSlicesOfTheValue : Obligations.WindowWordsAreSlicesOfTheValue := by
  unfold Obligations.WindowWordsAreSlicesOfTheValue
  refine fun s i m rest idle => ⟨fun hm => ?word, fun hm => ?half⟩
  case word =>
    have hslice : readLanes (s.reg i) (4 * m) 4 = (s.reg i).val / 2 ^ (32 * m) % 2 ^ 32 :=
      readLanes_eq_bits _ 4 m
    have hx : (BitVec.ofNat 32 (readLanes (s.reg i) (4 * m) 4)).toNat = (s.reg i).val / 2 ^ (32 * m) % 2 ^ 32 := by
      rw [BitVec.toNat_ofNat, hslice, Nat.mod_mod]
    refine ⟨_, step_readWindow idle i rest (by omega) (.inr (.inr rfl)) (by omega), hx, ?_⟩
    rintro d rfl
    rw [hx, ← digit_of_word]
  case half =>
    have hslice : readLanes (s.reg i) (2 * m) 2 = (s.reg i).val / 2 ^ (16 * m) % 2 ^ 16 :=
      readLanes_eq_bits _ 2 m
    rw [← hslice]
    exact step_readWindow idle i rest (by omega) (.inr (.inl rfl)) (by omega)

/-! ### Writes (20_memory.md R70, R71) -/

theorem byteOf_writeByte (f : FixedInt) (j d k : Nat) : byteOf (writeByte f j d).bytes k =
    if k = j ∧ k < f.width.toNat then d % 256 else byteOf f.bytes k := by
  by_cases h : j < f.width.toNat
  · rw [writeByte, if_pos h, byteOf_setByte]
    by_cases hk : k = j
    · rw [if_pos hk, if_pos ⟨hk, hk ▸ h⟩]
    · rw [if_neg hk, if_neg fun ⟨hkj, _⟩ => hk hkj]
  · rw [writeByte, if_neg h, if_neg fun ⟨hkj, hk⟩ => h (hkj ▸ hk)]

/-- Of the bytes of a window write those below the width are stored, and no other byte changes. -/
theorem byteOf_writeLanes (f : FixedInt) (j v n k : Nat) : byteOf (writeLanes f j v n).bytes k =
    if j ≤ k ∧ k < j + n ∧ k < f.width.toNat then byteOf v (k - j) else byteOf f.bytes k := by
  induction n with
  | zero => rw [writeLanes, if_neg (by omega)]
  | succ n ih =>
    rw [writeLanes, byteOf_writeByte, writeLanes_width, ih]
    by_cases hk : k = j + n ∧ k < f.width.toNat
    · rw [if_pos hk, if_pos (by omega), show k - j = n by omega, byteOf, Nat.mod_mod]
    · rw [if_neg hk]
      exact if_congr (by omega) rfl rfl

/-- Settles O46: the write is performed in Ri's slot, byte by byte. -/
theorem windowWriteStoresBytesWithinWidth : Obligations.WindowWriteStoresBytesWithinWidth := by
  unfold Obligations.WindowWriteStoresBytesWithinWidth
  intro s i j n v rest idle hj hn halign
  have hreg := writeWindow_reg_self { s with schedule := rest } (0x1000 + 0x100 * i.val + j) n v
  rw [windowReg_slot i hj, windowByte_slot i hj] at hreg
  refine ⟨_, step_writeWindow idle i rest hj hn halign v, rfl, fun r hr => ?others, ?width, fun k => ?bytes⟩
  case others =>
    exact writeWindow_reg_other { s with schedule := rest } _ n v ((windowReg_slot i hj).symm ▸ hr)
  case width =>
    rw [hreg, writeLanes_width]
    rfl
  case bytes =>
    rw [hreg]
    exact byteOf_writeLanes (s.reg i) j v.toNat n k

/-! ### Byte reads (20_memory.md R69) -/

theorem readLanes_one (f : FixedInt) (j : Nat) : readLanes f j 1 = readByte f j := by
  simp [readLanes]

/-- Settles O44: a byte read is a window byte, and in the storage form the value is the stored number. -/
theorem windowByteReadsWithinWidth : Obligations.WindowByteReadsWithinWidth := by
  unfold Obligations.WindowByteReadsWithinWidth
  intro s i j rest idle hj
  have hstep := step_readWindow idle i rest hj (.inl rfl) (Nat.mod_one j)
  rw [readLanes_one] at hstep
  refine ⟨_, hstep, rfl, ?_⟩
  rintro ⟨hwidth, hbytes⟩
  refine ⟨?stored, fun hwmax => ?beyond⟩
  case stored =>
    rw [readByte_eq_byteOf_val, val_of_wf hbytes, byteOf]
  case beyond => exact if_neg (hwidth.trans hwmax).not_gt

end Sys2Proof.Proofs

/-! PROOFS. The encoding (30_encoding.md): the OP byte selects a row of the opcode map, a command decodes from its own
word, and a word that does not decode fails at issue. -/

namespace Sys2Proof.Proofs

open Sys2Proof Sys2Proof.Machine Sys2Proof.Laws

/-! ### Words and fields as numbers (30_encoding.md R102, R105) -/

section
variable (w : Word)

theorem field_toNat (i n : Nat) : (w.extractLsb' i n).toNat = w.toNat / 2 ^ i % 2 ^ n := by
  rw [BitVec.extractLsb'_toNat, Nat.shiftRight_eq_div_pow]

theorem fieldOp_toNat : (fieldOp w).toNat = w.toNat % 256 := by
  rw [fieldOp, BitVec.extractLsb'_toNat, Nat.shiftRight_zero]

theorem fieldA_val : (fieldA w).val = w.toNat / 2 ^ 8 % 16 := field_toNat w 8 4

theorem fieldB_val : (fieldB w).val = w.toNat / 2 ^ 12 % 16 := field_toNat w 12 4

theorem fieldC_val : (fieldC w).val = w.toNat / 2 ^ 16 % 16 := field_toNat w 16 4

theorem fieldD_val : (fieldD w).val = w.toNat / 2 ^ 20 % 16 := field_toNat w 20 4

theorem fieldV_toNat : (fieldV w).toNat = w.toNat / 2 ^ 16 % 256 := field_toNat w 16 8

theorem fieldK_toNat : (fieldK w).toNat = w.toNat / 2 ^ 24 % 256 := field_toNat w 24 8

end

theorem regBits_toNat (r : Reg) : (regBits r).toNat = r.val := Nat.mod_eq_of_lt r.isLt

section
variable (a b c d : Reg) (k v op : Byte)

theorem formatR_toNat : (formatR d c b a op).toNat =
    op.toNat + 2 ^ 8 * a.val + 2 ^ 12 * b.val + 2 ^ 16 * c.val + 2 ^ 20 * d.val := by
  simp only [formatR, toNat_append_add, regBits_toNat, BitVec.toNat_ofNat]
  omega

theorem formatK_toNat : (formatK k b a op).toNat =
    op.toNat + 2 ^ 8 * a.val + 2 ^ 12 * b.val + 2 ^ 24 * k.toNat := by
  simp only [formatK, toNat_append_add, regBits_toNat, BitVec.toNat_ofNat]
  omega

theorem formatS_toNat : (formatS k v a op).toNat =
    op.toNat + 2 ^ 8 * a.val + 2 ^ 16 * v.toNat + 2 ^ 24 * k.toNat := by
  simp only [formatS, toNat_append_add, regBits_toNat, BitVec.toNat_ofNat]
  omega

theorem fieldA_formatR : fieldA (formatR d c b a op) = a := by
  apply Fin.ext
  rw [fieldA_val, formatR_toNat]
  omega

theorem fieldB_formatR : fieldB (formatR d c b a op) = b := by
  apply Fin.ext
  rw [fieldB_val, formatR_toNat]
  omega

theorem fieldC_formatR : fieldC (formatR d c b a op) = c := by
  apply Fin.ext
  rw [fieldC_val, formatR_toNat]
  omega

theorem fieldD_formatR : fieldD (formatR d c b a op) = d := by
  apply Fin.ext
  rw [fieldD_val, formatR_toNat]
  omega

theorem fieldA_formatK : fieldA (formatK k b a op) = a := by
  apply Fin.ext
  rw [fieldA_val, formatK_toNat]
  omega

theorem fieldB_formatK : fieldB (formatK k b a op) = b := by
  apply Fin.ext
  rw [fieldB_val, formatK_toNat]
  omega

theorem fieldK_formatK : fieldK (formatK k b a op) = k := by
  apply BitVec.eq_of_toNat_eq
  rw [fieldK_toNat, formatK_toNat]
  omega

theorem fieldA_formatS : fieldA (formatS k v a op) = a := by
  apply Fin.ext
  rw [fieldA_val, formatS_toNat]
  omega

theorem fieldV_formatS : fieldV (formatS k v a op) = v := by
  apply BitVec.eq_of_toNat_eq
  rw [fieldV_toNat, formatS_toNat]
  omega

theorem fieldK_formatS : fieldK (formatS k v a op) = k := by
  apply BitVec.eq_of_toNat_eq
  rw [fieldK_toNat, formatS_toNat]
  omega

end

/-! ### A command's word matches its row under the row's mask (30_encoding.md R107, R108) -/

/-- A word matches its OP under a mask that keeps OP and clears the rest. -/
theorem append_and_mask {x m : BitVec 24} (h : x &&& m = 0#24) (op : Byte) :
    (x ++ op) &&& (m ++ 0xFF#8) = 0#24 ++ op := by
  rw [BitVec.and_append, h]
  exact congrArg (0#24 ++ ·) BitVec.and_allOnes

theorem append_and_eq_zero {m n : Nat} {x p : BitVec m} {y q : BitVec n} (hx : x &&& p = 0#m) (hy : y &&& q = 0#n) :
    (x ++ y) &&& (p ++ q) = 0#(m + n) := by
  rw [BitVec.and_append, hx, hy, BitVec.zero_append_zero]

/-- The same for a word with an 8-bit field, four register fields and OP, as formats R and K have it. -/
theorem fields_and_mask {t mt : BitVec 8} {d c b a md mc mb ma : BitVec 4} (ht : t &&& mt = 0#8) (hd : d &&& md = 0#4)
    (hc : c &&& mc = 0#4) (hb : b &&& mb = 0#4) (ha : a &&& ma = 0#4) (op : Byte) :
    (t ++ d ++ c ++ b ++ a ++ op) &&& (mt ++ md ++ mc ++ mb ++ ma ++ 0xFF#8) = 0#24 ++ op :=
  append_and_mask (append_and_eq_zero (append_and_eq_zero (append_and_eq_zero (append_and_eq_zero ht hd) hc) hb) ha) op

/-! ### The seven kinds of rows, by the fields they use -/

section
variable {w : Word} {a b c d : Reg} {k v op : Byte}

theorem decodeRow_formatR_a {f : Reg → Instr} (hw : formatR 0 0 0 a op = w) :
    decodeRow w (0#24 ++ op) 0xFFFFF0FF#32 (f (fieldA w)) = .ok (f a) := by
  rw [← hw, fieldA_formatR]
  exact if_pos (fields_and_mask (mt := 0xFF#8) (md := 0xF#4) (mc := 0xF#4) (mb := 0xF#4) rfl rfl rfl rfl
    BitVec.and_zero op)

theorem decodeRow_formatR_ab {f : Reg → Reg → Instr} (hw : formatR 0 0 b a op = w) :
    decodeRow w (0#24 ++ op) 0xFFFF00FF#32 (f (fieldA w) (fieldB w)) = .ok (f a b) := by
  rw [← hw, fieldA_formatR, fieldB_formatR]
  exact if_pos (fields_and_mask (mt := 0xFF#8) (md := 0xF#4) (mc := 0xF#4) rfl rfl rfl BitVec.and_zero
    BitVec.and_zero op)

theorem decodeRow_formatR_abc {f : Reg → Reg → Reg → Instr} (hw : formatR 0 c b a op = w) :
    decodeRow w (0#24 ++ op) 0xFFF000FF#32 (f (fieldA w) (fieldB w) (fieldC w)) = .ok (f a b c) := by
  rw [← hw, fieldA_formatR, fieldB_formatR, fieldC_formatR]
  exact if_pos (fields_and_mask (mt := 0xFF#8) (md := 0xF#4) rfl rfl BitVec.and_zero BitVec.and_zero
    BitVec.and_zero op)

theorem decodeRow_formatR_abcd {f : Reg → Reg → Reg → Reg → Instr} (hw : formatR d c b a op = w) :
    decodeRow w (0#24 ++ op) 0xFF0000FF#32 (f (fieldA w) (fieldB w) (fieldC w) (fieldD w)) = .ok (f a b c d) := by
  rw [← hw, fieldA_formatR, fieldB_formatR, fieldC_formatR, fieldD_formatR]
  exact if_pos (fields_and_mask (mt := 0xFF#8) rfl BitVec.and_zero BitVec.and_zero BitVec.and_zero
    BitVec.and_zero op)

theorem decodeRow_formatK_ak {f : Reg → Byte → Instr} (hw : formatK k 0 a op = w) :
    decodeRow w (0#24 ++ op) 0x00FFF0FF#32 (f (fieldA w) (fieldK w)) = .ok (f a k) := by
  rw [← hw, fieldA_formatK, fieldK_formatK]
  exact if_pos (fields_and_mask (md := 0xF#4) (mc := 0xF#4) (mb := 0xF#4) BitVec.and_zero rfl rfl rfl
    BitVec.and_zero op)

theorem decodeRow_formatK_abk {f : Reg → Reg → Byte → Instr} (hw : formatK k b a op = w) :
    decodeRow w (0#24 ++ op) 0x00FF00FF#32 (f (fieldA w) (fieldB w) (fieldK w)) = .ok (f a b k) := by
  rw [← hw, fieldA_formatK, fieldB_formatK, fieldK_formatK]
  exact if_pos (fields_and_mask (md := 0xF#4) (mc := 0xF#4) BitVec.and_zero rfl rfl BitVec.and_zero
    BitVec.and_zero op)

theorem decodeRow_formatS_avk {f : Reg → Byte → Byte → Instr} (hw : formatS k v a op = w) :
    decodeRow w (0#24 ++ op) 0x0000F0FF#32 (f (fieldA w) (fieldV w) (fieldK w)) = .ok (f a v k) := by
  rw [← hw, fieldA_formatS, fieldV_formatS, fieldK_formatS]
  have hkv : (k ++ v) &&& (0#8 ++ 0#8) = 0#16 := append_and_eq_zero BitVec.and_zero BitVec.and_zero
  exact if_pos (append_and_mask (m := 0#8 ++ 0#8 ++ 0xF#4 ++ 0#4)
    (append_and_eq_zero (append_and_eq_zero hkv rfl) BitVec.and_zero) op)

end

/-! ### decode of encode -/

theorem fieldOp_encode (i : Instr) : fieldOp (encode i) = opcodeOf i := by
  cases i <;> exact fieldOp_append _ _

theorem decode_encode (i : Instr) : decode (encode i) = .ok i := by
  unfold decode
  rw [fieldOp_encode]
  cases i with
  | create _ _ | shl _ _ => exact decodeRow_formatK_ak rfl
  | small _ _ _ => exact decodeRow_formatS_avk rfl
  | widen _ _ _ => exact decodeRow_formatK_abk rfl
  | clear _ | nz _ | sdc _ | even _ => exact decodeRow_formatR_a rfl
  | assign _ _ | eq _ _ | gt _ _ | ge _ _ | add _ _ | sub _ _ | mul _ _ | div _ _ | mod _ _ =>
    exact decodeRow_formatR_ab rfl
  | mulmod _ _ _ => exact decodeRow_formatR_abc rfl
  | divrem _ _ _ _ | powmod _ _ _ _ => exact decodeRow_formatR_abcd rfl

/-- Settles O1: a command's OP selects its own row, its word matches there, and the fields read back. -/
theorem decodeOfEncodeIsTheCommand : Obligations.DecodeOfEncodeIsTheCommand :=
  decode_encode

/-- Settles O2: the mask of the row that decoded a word fixes every field the command does not use. -/
theorem encodeOfDecodeIsTheWord : Obligations.EncodeOfDecodeIsTheWord :=
  fun _ _ => encode_of_decode

/-- Settles O5: each of the seven words is its command's encoding. -/
theorem workedEncodingsDecode : Obligations.WorkedEncodingsDecode :=
  ⟨decode_encode (.add 1 2), decode_encode (.small 3 5 2), decode_encode (.create 0 16), decode_encode (.shl 4 3),
    decode_encode (.divrem 0 1 2 3), decode_encode (.mulmod 5 6 7), decode_encode (.powmod 0 1 2 3)⟩

/-! ### The row a word selects (30_encoding.md R107 to R109) -/

theorem decodeRow_error {w hit mask : Word} {i : Instr} {e : CmdError} (h : decodeRow w hit mask i = .error e) :
    w &&& mask ≠ hit ∧ e = .reservedField := by
  unfold decodeRow at h
  split at h
  next => cases h
  next hm => exact ⟨hm, (Except.error.inj h).symm⟩

theorem decode_of_rowMask_none {w : Word} (h : rowMask (w.toNat % 256) = none) : decode w = .error .illegalOpcode := by
  unfold decode
  rw [fieldOp_toNat]
  split
  case h_21 => rfl
  all_goals
    rename_i hop
    rw [hop] at h
    cases h

theorem decode_of_rowMask_some {w mask : Word} (h : rowMask (w.toNat % 256) = some mask) :
    ∃ i, decode w = decodeRow w (BitVec.ofNat 32 (w.toNat % 256)) mask i := by
  unfold decode
  rw [fieldOp_toNat]
  unfold rowMask at h
  split at h
  case h_21 => cases h
  all_goals
    obtain rfl := Option.some.inj h
    rename_i hop
    rw [hop]
    exact ⟨_, rfl⟩

/-- The OP values of R109. -/
theorem rowMask_eq_none_iff {op : Nat} : rowMask op = none ↔
    op = 0x00 ∨ op = 0x06 ∨ op = 0x07 ∨ op = 0x0E ∨ op = 0x0F ∨ op = 0x17 ∨ 0x1A ≤ op := by
  unfold rowMask
  split
  case h_21 =>
    simp only [imp_false, true_iff] at *
    omega
  all_goals simp

/-! ### Issue (30_encoding.md R103, R107, R109) -/

section
variable {s : State} (idle : s.busy = false)
include idle

/-- An issue that fails, as one state. -/
theorem issueWord_eq_failedIssue (x : Word) (e : CmdError) :
    s.issueWord x (.error e) = failedIssue s x (errorCode e) :=
  issueWord_of_error idle x e

/-- An issue that passes, as one state. -/
theorem issueWord_eq_startedIssue (x : Word) (l : Latched) : s.issueWord x (.ok l) = startedIssue s x l :=
  issueWord_of_ok idle x l

theorem step_writeCmd_of_decode_error {w : Word} {e : CmdError} (h : decode w = .error e) (rest : List Event) :
    step { s with schedule := .mmioWrite 0x00C 4 w :: rest } =
      .next (failedIssue { s with schedule := rest } w (errorCode e)) := by
  rw [step_writeCmd_of_idle s idle, runWord_of_error h,
    issueWord_eq_failedIssue (s := { s with schedule := rest }) idle]

end

/-- Settles O3: no row has an OP of R109's list, and every other OP has a row. -/
theorem illegalOpcodesFailAtIssue : Obligations.IllegalOpcodesFailAtIssue := by
  unfold Obligations.IllegalOpcodesFailAtIssue
  intro s w rest idle
  simp only [← rowMask_eq_none_iff]
  refine ⟨fun h => step_writeCmd_of_decode_error idle (decode_of_rowMask_none h) rest, fun hrow hdecode => ?_⟩
  obtain ⟨mask, hmask⟩ := Option.ne_none_iff_exists'.1 hrow
  obtain ⟨i, hi⟩ := decode_of_rowMask_some hmask
  obtain ⟨-, ⟨⟩⟩ := decodeRow_error (hi.symm.trans hdecode)

/-- A word matches its row when the bits under the mask are those of OP. -/
theorem and_mask_eq_op_iff {w mask : Word} :
    w &&& mask = BitVec.ofNat 32 (w.toNat % 256) ↔ (w &&& mask).toNat = w.toNat % 256 := by
  rw [← BitVec.toNat_inj, BitVec.toNat_ofNat, Nat.mod_eq_of_lt (by omega)]

/-- Settles O4: the row that OP selects tests the word against its mask. -/
theorem reservedBitsFailAtIssue : Obligations.ReservedBitsFailAtIssue := by
  unfold Obligations.ReservedBitsFailAtIssue
  intro s w mask rest idle hmask
  obtain ⟨i, hi⟩ := decode_of_rowMask_some hmask
  refine ⟨fun hne => ?breaks, fun heq => ?keeps⟩
  case breaks =>
    have herror : decode w = .error .reservedField := hi.trans (if_neg (and_mask_eq_op_iff.not.2 hne))
    exact step_writeCmd_of_decode_error idle herror rest
  case keeps =>
    have hok : decode w = .ok i := hi.trans (if_pos (and_mask_eq_op_iff.2 heq))
    exact ⟨i, encode_of_decode hok, hok⟩

theorem checkWidth_bind_of_bad {s : State} {k : Byte} (h : k.toNat = 0 ∨ s.wmax.toNat < k.toNat)
    (f : Unit → Except CmdError Latched) : checkWidth s k >>= f = .error .badWidth := by
  rw [(checkWidth_error_iff s k .badWidth).2 ⟨rfl, h⟩]
  rfl

/-- Settles O10: CREATE, SMALL and WIDEN check the width first; SHL only reads its operand. -/
theorem widthImmediateOutOfRangeFails : Obligations.WidthImmediateOutOfRangeFails := by
  unfold Obligations.WidthImmediateOutOfRangeFails
  intro a b v k s idle
  refine ⟨fun hbad => ?bad, fun ha => ?shl⟩
  case bad =>
    have fails (i : Instr) (f : Unit → Except CmdError Latched) :
        issue i s (checkWidth s k >>= f) = .next (failedIssue s (encode i) 0x03#8) := by
      rw [checkWidth_bind_of_bad hbad, issue_next, issueWord_eq_failedIssue idle]
      rfl
    exact ⟨fails _ _, fails _ _, fails _ _⟩
  case shl =>
    refine ⟨latchWrite (.shl a k) [s.reg a] a (s.reg a).width
      (shlDigits (s.reg a).width.toNat (s.reg a).val k.toNat), ?_⟩
    rw [exec, execShl, readOperand_of_allocated ha, issue_next, ← issueWord_eq_startedIssue idle]
    rfl

end Sys2Proof.Proofs

/-! PROOFS. The construction and assignment commands (40_construct.md R141 to R145): each writes one register, with no
progress event, so its first engine step is its commit (50_command_cycle.md R260). -/

namespace Sys2Proof.Proofs

open Sys2Proof Sys2Proof.Machine

/-! ### Commands with no progress event -/

/-- From the issue of a command with no event, one engine step commits it. -/
theorem runsTo_completed_of_no_events (s : State) (w : Word) {l : Latched} (hp : l.pending = []) :
    RunsTo (startedIssue s w l) []
      (completed s w (writeRegs s.regs l.writes) (l.result.getD s.result) []) := by
  refine ⟨fun k hk => ?exec, ?commit⟩
  case exec =>
    obtain rfl : k = 0 := Nat.le_zero.1 hk
    exact ⟨rfl, rfl, rfl, fun hpos => absurd hpos (Nat.lt_irrefl 0)⟩
  case commit => exact engineStep_commit (s := startedIssue s w l) rfl hp

/-- What a commit stores is the pair itself when the value fits the width. -/
theorem writeReg_eq_withReg (regs : Vector FixedInt 16) (a : Reg) {w : Byte} {v : Nat} (h : v < modulus w.toNat) :
    writeReg regs a ⟨w, v⟩ = withReg regs a w v := by
  rw [writeReg, fixedOf_of_lt h, withReg]

/-- A command whose checks latch the write of `(w, v)` to register `a` changes that register, and else only what
every command changes. -/
theorem exec_completes_write {s : State} {i : Instr} {c : Except CmdError Latched} {operands : List FixedInt} {a : Reg}
    {w : Byte} {v : Nat} (idle : s.busy = false) (hexec : exec i s = issue i s c)
    (hc : c = .ok (latchWrite i operands a w v)) (hv : v < modulus w.toNat) :
    ∃ m, exec i s = .next m ∧ RunsTo m [] (completed s (encode i) (withReg s.regs a w v) s.result []) := by
  refine ⟨startedIssue s (encode i) (latchWrite i operands a w v), ?_, ?_⟩
  · rw [hexec, hc, issue_next, issueWord_eq_startedIssue idle]
  · rw [← writeReg_eq_withReg s.regs a hv]
    exact runsTo_completed_of_no_events s (encode i) rfl

/-! ### The commands -/

/-- Settles O17: only K is checked, and a byte fits every legal width. -/
theorem createAndSmallMakeFixedInts : Obligations.CreateAndSmallMakeFixedInts := by
  unfold Obligations.CreateAndSmallMakeFixedInts
  intro a v k s idle hpos hmax
  have latches (l : Latched) : (checkWidth s k >>= fun _ => .ok l) = .ok l :=
    (checkWidth_bind_ok_iff s _ l k).2 ⟨⟨hpos, hmax⟩, rfl⟩
  refine ⟨?create, ?small⟩
  case create => exact exec_completes_write idle rfl (latches _) (modulus_pos _)
  case small => exact exec_completes_write idle rfl (latches _) (lt_modulus_of_byte v hpos)

/-- Settles O18: the checks on K and B pass, and B's value is taken modulo `M(K)`. -/
theorem widenCopiesAtNewWidth : Obligations.WidenCopiesAtNewWidth := by
  unfold Obligations.WidenCopiesAtNewWidth
  intro a b k s idle hpos hmax hb
  refine exec_completes_write (operands := [s.reg b]) idle rfl ?latches (Nat.mod_lt _ (modulus_pos _))
  case latches =>
    rw [checkWidth_bind_ok_iff, readOperand_bind_ok_iff]
    exact ⟨⟨hpos, hmax⟩, hb, rfl⟩

/-- Settles O19: both read A for its width, ASSIGN reads B for its value. -/
theorem assignAndClearKeepWidth : Obligations.AssignAndClearKeepWidth := by
  unfold Obligations.AssignAndClearKeepWidth
  intro a b s idle ha
  refine ⟨fun hb => ?assign, ?clear⟩
  case assign =>
    refine exec_completes_write (operands := [s.reg a, s.reg b]) idle rfl ?latches (Nat.mod_lt _ (modulus_pos _))
    case latches =>
      rw [readOperand_bind_ok_iff, readOperand_bind_ok_iff]
      exact ⟨ha, hb, rfl⟩
  case clear =>
    refine exec_completes_write (operands := [s.reg a]) idle rfl ?latches (modulus_pos _)
    case latches =>
      rw [readOperand_bind_ok_iff]
      exact ⟨ha, rfl⟩

end Sys2Proof.Proofs

/-! PROOFS. The comparison and digit-count commands (41_compare.md R161 to R169): the two digit scans compute the
numeric order and the least digit bound, and each command writes RESULT alone. -/

namespace Sys2Proof.Proofs

open Sys2Proof Sys2Proof.Machine

/-! ### The digit comparison (41_compare.md R161) -/

/-- The low `n + 1` digits of a number are its digit `n` and its low `n` digits. -/
theorem mod_pow_succ_eq_digit_add (v n : Nat) : v % 16 ^ (n + 1) = 16 ^ n * digit v n + v % 16 ^ n := by
  rw [Nat.mod_pow_succ, Nat.add_comm, digit]

/-- A greater leading digit outweighs whatever follows it. -/
theorem mul_add_lt_mul_add_of_lt {p d e r : Nat} (h : d < e) (hr : r < p) (q : Nat) : p * d + r < p * e + q :=
  calc p * d + r < p * d + p := Nat.add_lt_add_left hr _
    _ = p * (d + 1) := (Nat.mul_succ p d).symm
    _ ≤ p * e := Nat.mul_le_mul_left p h
    _ ≤ p * e + q := Nat.le_add_right _ _

/-- The scan of the low `n` digits compares the numbers that they form. -/
theorem cmpScan_eq_compare (a b n : Nat) : cmpScan a b n = compare (a % 16 ^ n) (b % 16 ^ n) := by
  induction n with
  | zero => rw [cmpScan, pow_zero, Nat.mod_one, Nat.mod_one, Nat.compare_eq_eq.2 rfl]
  | succ n ih =>
    have low_lt (v : Nat) : v % 16 ^ n < 16 ^ n := Nat.mod_lt _ (by positivity)
    rw [cmpScan, mod_pow_succ_eq_digit_add a, mod_pow_succ_eq_digit_add b]
    split_ifs with hgt hlt
    · exact (Nat.compare_eq_gt.2 (mul_add_lt_mul_add_of_lt hgt (low_lt b) _)).symm
    · exact (Nat.compare_eq_lt.2 (mul_add_lt_mul_add_of_lt hlt (low_lt a) _)).symm
    · rw [ih, Nat.le_antisymm (Nat.not_lt.1 hgt) (Nat.not_lt.1 hlt)]
      simp only [Nat.compare_eq_ite_lt, Nat.add_lt_add_iff_left]

/-- `cmp_w` is the numeric order of width-`w` values. -/
theorem cmpDigits_eq_compare {w a b : Nat} (ha : a < modulus w) (hb : b < modulus w) :
    cmpDigits w a b = compare a b := by
  rw [cmpDigits, cmpScan_eq_compare, ← modulus_eq_pow_digits, Nat.mod_eq_of_lt ha, Nat.mod_eq_of_lt hb]

/-- The operands of a command that checks their widths are compared as numbers. -/
theorem cmpDigits_val {x y : FixedInt} (h : x.width = y.width) :
    cmpDigits x.width.toNat x.val y.val = compare x.val y.val :=
  cmpDigits_eq_compare (val_lt x) (val_lt_of_width_eq h)

/-! ### The digit count (41_compare.md R162) -/

/-- A leading zero digit can be dropped. -/
theorem lt_pow_of_digit_eq_zero {v n : Nat} (h : v < 16 ^ (n + 1)) (hd : digit v n = 0) : v < 16 ^ n := by
  rw [← Nat.mod_eq_of_lt h, mod_pow_succ_eq_digit_add, hd, Nat.mul_zero, Nat.zero_add]
  exact Nat.mod_lt _ (by positivity)

/-- The digits that the scan counts hold the whole number. -/
theorem lt_pow_sdcScan {v n : Nat} (h : v < 16 ^ n) : v < 16 ^ sdcScan v n := by
  induction n with
  | zero => exact h
  | succ n ih =>
    unfold sdcScan
    split
    next => exact h
    next hd => exact ih (lt_pow_of_digit_eq_zero h (not_not.1 hd))

/-! ### Commands that write only RESULT (41_compare.md, 50_command_cycle.md R260) -/

/-- A command whose checks latch `v` for RESULT changes no register, and else only what every command changes. -/
theorem exec_completes_result {s : State} {i : Instr} {c : Except CmdError Latched} {operands : List FixedInt}
    {v : Word} (idle : s.busy = false) (hexec : exec i s = issue i s c) (hc : c = .ok (latchResult i operands v)) :
    ∃ m, exec i s = .next m ∧ RunsTo m [] (completed s (encode i) s.regs v []) := by
  refine ⟨startedIssue s (encode i) (latchResult i operands v), ?_, runsTo_completed_of_no_events s (encode i) rfl⟩
  rw [hexec, hc, issue_next, issueWord_eq_startedIssue idle]

theorem boolWord_eq_ite {p : Bool} {P : Prop} [Decidable P] (h : p = true ↔ P) :
    boolWord p = if P then 1#32 else 0#32 := by
  rw [boolWord]
  exact if_congr h rfl rfl

section
variable {s : State} {i : Instr} {a b : Reg} {P : Prop} [Decidable P]

/-- A predicate of one operand. -/
theorem unaryTest_completes (p : FixedInt → Bool) (idle : s.busy = false) (ha : (s.reg a).width ≠ 0#8)
    (hp : p (s.reg a) = true ↔ P)
    (hexec : exec i s = issue i s (do
      let x ← readOperand s a
      return latchResult i [x] (boolWord (p x)))) :
    ∃ m, exec i s = .next m ∧ RunsTo m [] (completed s (encode i) s.regs (if P then 1#32 else 0#32) []) := by
  rw [← boolWord_eq_ite hp]
  refine exec_completes_result (operands := [s.reg a]) idle hexec ?latches
  case latches =>
    rw [readOperand_bind_ok_iff]
    exact ⟨ha, rfl⟩

/-- A predicate of two operands of one width. -/
theorem binaryTest_completes (p : FixedInt → FixedInt → Bool) (idle : s.busy = false) (ha : (s.reg a).width ≠ 0#8)
    (hab : (s.reg b).width = (s.reg a).width) (hp : p (s.reg a) (s.reg b) = true ↔ P)
    (hexec : exec i s = issue i s (do
      let x ← readOperand s a
      let y ← readOperand s b
      checkSameWidth x y
      return latchResult i [x, y] (boolWord (p x y)))) :
    ∃ m, exec i s = .next m ∧ RunsTo m [] (completed s (encode i) s.regs (if P then 1#32 else 0#32) []) := by
  rw [← boolWord_eq_ite hp]
  refine exec_completes_result (operands := [s.reg a, s.reg b]) idle hexec ?latches
  case latches =>
    rw [readOperand_bind_ok_iff, readOperand_bind_ok_iff, checkSameWidth_bind_ok_iff]
    exact ⟨ha, hab ▸ ha, hab.symm, rfl⟩

end

/-! ### The commands -/

/-- Settles O20: EQ tests two operands of one width. -/
theorem eqComparesValues : Obligations.EqComparesValues := by
  unfold Obligations.EqComparesValues
  intro a b s idle ha hab
  exact binaryTest_completes (fun x y => x.val == y.val) idle ha hab beq_iff_eq rfl

/-- The parity of byte 0 is the parity of the number. -/
theorem byteOf_zero_mod_two (v : Nat) : byteOf v 0 % 2 = v % 2 := by
  rw [byteOf, pow_zero, Nat.div_one]
  omega

/-- Settles O21: NZ and EVEN test one operand, EVEN by its byte 0. -/
theorem nzAndEvenTestValue : Obligations.NzAndEvenTestValue := by
  unfold Obligations.NzAndEvenTestValue
  intro a s idle ha
  refine ⟨?nz, ?even⟩
  case nz => exact unaryTest_completes (fun x => x.val != 0) idle ha bne_iff_ne rfl
  case even =>
    refine unaryTest_completes (fun x => byteOf x.val 0 % 2 == 0) idle ha ?_ rfl
    rw [beq_iff_eq, byteOf_zero_mod_two]

/-- Settles O22: the digit comparison of two operands of one width compares their values. -/
theorem gtAndGeAreNumericOrder : Obligations.GtAndGeAreNumericOrder := by
  unfold Obligations.GtAndGeAreNumericOrder
  intro a b s idle ha hab
  refine ⟨?gt, ?ge⟩
  case gt =>
    refine binaryTest_completes (fun x y => cmpDigits x.width.toNat x.val y.val == .gt) idle ha hab ?_ rfl
    rw [beq_iff_eq, cmpDigits_val hab.symm, Nat.compare_eq_gt, gt_iff_lt]
  case ge =>
    refine binaryTest_completes (fun x y => cmpDigits x.width.toNat x.val y.val != .lt) idle ha hab ?_ rfl
    rw [bne_iff_ne, cmpDigits_val hab.symm, Nat.compare_ne_lt, ge_iff_le]

/-- Settles O23: the digits that SDC counts hold the value, and no fewer do. -/
theorem sdcIsLeastDigitBound : Obligations.SdcIsLeastDigitBound := by
  unfold Obligations.SdcIsLeastDigitBound
  intro a s idle ha
  have hv : (s.reg a).val < 16 ^ (2 * (s.reg a).width.toNat) := by
    rw [← modulus_eq_pow_digits]
    exact val_lt _
  obtain ⟨m, hexec, hrun⟩ := exec_completes_result (i := .sdc a) (operands := [s.reg a]) idle rfl
    ((readOperand_bind_ok_iff s _ _ a).2 ⟨ha, rfl⟩)
  exact ⟨m, sdcDigits (s.reg a).width.toNat (s.reg a).val, hexec, hrun, sdcDigits_le _, lt_pow_sdcScan hv,
    fun k hk => sdcScan_le hk _⟩

/-- A command with no progress event has committed after one engine step. -/
theorem engineRun_one_of_runsTo {m t : State} (h : RunsTo m [] t) : engineRun 1 m = t := by
  obtain ⟨-, ht⟩ := h
  exact ht

/-- Settles O33: the laws are those of the numeric order, which GT and GE compute. -/
theorem compareLawsHold : Obligations.CompareLawsHold := by
  unfold Obligations.CompareLawsHold
  intro a b s idle ha
  obtain ⟨⟨mgt, hmgt, rgt⟩, mge, hmge, rge⟩ := gtAndGeAreNumericOrder a a s idle ha rfl
  refine ⟨⟨mge, hmge, ?ge⟩, ⟨mgt, hmgt, ?gt⟩, fun hab => ?antisymm⟩
  case ge =>
    rw [engineRun_one_of_runsTo rge]
    exact ⟨rfl, if_pos le_rfl⟩
  case gt =>
    rw [engineRun_one_of_runsTo rgt]
    exact ⟨rfl, if_neg (lt_irrefl _)⟩
  case antisymm =>
    obtain ⟨⟨m, hm, rm⟩, -⟩ := gtAndGeAreNumericOrder a b s idle ha hab
    obtain ⟨⟨n, hn, rn⟩, -⟩ := gtAndGeAreNumericOrder b a s idle (hab ▸ ha) hab.symm
    refine ⟨m, n, hm, hn, ?_⟩
    rw [engineRun_one_of_runsTo rm, engineRun_one_of_runsTo rn]
    have one_ne_zero : 1#32 ≠ 0#32 := by decide
    exact ⟨rfl, rfl, fun ⟨hgt, hlt⟩ => lt_asymm (one_ne_zero.ite_eq_left_iff.1 hgt) (one_ne_zero.ite_eq_left_iff.1 hlt)⟩

end Sys2Proof.Proofs

/-! PROOFS. The digit loops of 42_arith.md R181 to R184 compute the closed forms that the rules derive: the shifted
digits, the sum, the difference and the product modulo `M(w)`, and the progress events of the product. -/

namespace Sys2Proof.Proofs

open Sys2Proof Sys2Proof.Machine

/-! ### Digits of truncated and shifted numbers (42_arith.md R181) -/

theorem div_pow_succ (v j : Nat) : v / 16 ^ (j + 1) = v / 16 ^ j / 16 := by
  rw [pow_succ, Nat.div_div_eq_div_mul]

/-- Truncation to `n` digits keeps each of them. -/
theorem digit_mod_pow {j n : Nat} (h : j < n) (v : Nat) : digit (v % 16 ^ n) j = digit v j := by
  obtain ⟨m, rfl⟩ := Nat.exists_eq_add_of_lt h
  rw [digit, digit, show j + m + 1 = j + (m + 1) by omega, pow_add, Nat.mod_mul_right_div_self,
    Nat.mod_mod_of_dvd _ (Dvd.intro_left _ (pow_succ 16 m).symm)]

/-- A shift by `k` places moves a digit up. -/
theorem digit_mul_pow_add (v k i : Nat) : digit (v * 16 ^ k) (k + i) = digit v i := by
  rw [digit, digit, pow_add, ← Nat.div_div_eq_div_mul, Nat.mul_div_cancel _ (by positivity)]

/-- A shift by `k` places leaves zeros below. -/
theorem digit_mul_pow_of_lt {j k : Nat} (h : j < k) (v : Nat) : digit (v * 16 ^ k) j = 0 := by
  rw [← digit_mod_pow h, Nat.mul_mod_left, digit, Nat.zero_div]

/-- The digits of a shift that is truncated to width `w`. -/
theorem digit_shlDigits {w j : Nat} (h : j < 2 * w) (v k : Nat) :
    digit (shlDigits w v k) j = if k ≤ j then digit v (j - k) else 0 := by
  rw [shlDigits, modulus_eq_pow_digits, digit_mod_pow h]
  split_ifs with hk
  · obtain ⟨i, rfl⟩ := Nat.exists_eq_add_of_le hk
    rw [digit_mul_pow_add, Nat.add_sub_cancel_left]
  · exact digit_mul_pow_of_lt (Nat.lt_of_not_le hk) v

/-! ### Addition (42_arith.md R182) -/

/-- The loop from digit `j` adds what the operands hold from there up, and the carry. -/
theorem addScan_eq (a b n j c : Nat) :
    addScan a b n j c = 16 ^ j * ((a / 16 ^ j + b / 16 ^ j + c) % 16 ^ n) := by
  induction n generalizing j c with
  | zero => rw [addScan, pow_zero, Nat.mod_one, Nat.mul_zero]
  | succ n ih =>
    rw [addScan, ih, digit, digit, div_pow_succ, div_pow_succ, pow_succ 16 j, pow_succ' 16 n, Nat.mod_mul]
    generalize a / 16 ^ j = x
    generalize b / 16 ^ j = y
    have low : (x % 16 + y % 16 + c) % 16 = (x + y + c) % 16 := by omega
    have carry : x / 16 + y / 16 + (x % 16 + y % 16 + c) / 16 = (x + y + c) / 16 := by omega
    rw [low, carry]
    ring

/-- The carry that is lost is `M(w)`. -/
theorem addDigits_eq (w a b : Nat) : addDigits w a b = (a + b) % modulus w := by
  rw [addDigits, addScan_eq, modulus_eq_pow_digits, pow_zero, Nat.div_one, Nat.div_one, Nat.one_mul, Nat.add_zero]

/-! ### Subtraction (42_arith.md R183) -/

/-- The residue of a product of moduli, from the low one up (`Nat.mod_mul` for integers). -/
theorem int_emod_mul {m : ℤ} (hm : 0 ≤ m) (x k : ℤ) : x % (m * k) = x % m + m * (x / m % k) := by
  rw [Int.emod_def x m, Int.emod_def (x / m) k, Int.emod_def x (m * k), Int.ediv_ediv_of_nonneg hm]
  ring

/-- One digit of the difference and the borrow it leaves, from those of the digits above. -/
theorem subScan_digit {a b n j br d br' : Nat}
    (ih : (subScan a b n (j + 1) br' : ℤ) =
      16 ^ (j + 1) * (((a / 16 ^ (j + 1) : ℕ) - (b / 16 ^ (j + 1) : ℕ) - br' : ℤ) % 16 ^ n))
    (hdigit : a / 16 ^ j % 16 + 16 * br' = d + (b / 16 ^ j % 16 + br)) (hd : d < 16) :
    ((d * 16 ^ j + subScan a b n (j + 1) br' : ℕ) : ℤ) =
      16 ^ j * (((a / 16 ^ j : ℕ) - (b / 16 ^ j : ℕ) - br : ℤ) % 16 ^ (n + 1)) := by
  rw [Nat.cast_add, ih, div_pow_succ, div_pow_succ, Nat.cast_mul, Nat.cast_pow, pow_succ 16 j, pow_succ' 16 n,
    int_emod_mul (by decide)]
  generalize a / 16 ^ j = x at hdigit ⊢
  generalize b / 16 ^ j = y at hdigit ⊢
  have low : (d : ℤ) = (x - y - br : ℤ) % 16 := by omega
  have borrow : ((x / 16 : ℕ) - (y / 16 : ℕ) - br' : ℤ) = (x - y - br : ℤ) / 16 := by omega
  rw [low, borrow, Nat.cast_ofNat]
  ring

/-- The loop from digit `j` subtracts what the operands hold from there up, and the borrow. -/
theorem subScan_eq (a b n j : Nat) {br : Nat} (h : br ≤ 1) :
    (subScan a b n j br : ℤ) = 16 ^ j * (((a / 16 ^ j : ℕ) - (b / 16 ^ j : ℕ) - br : ℤ) % 16 ^ n) := by
  induction n generalizing j br with
  | zero => rw [subScan, pow_zero, Int.emod_one, mul_zero, Nat.cast_zero]
  | succ n ih =>
    have ha := digit_lt a j
    have hb := digit_lt b j
    rw [subScan]
    split_ifs with hlt
    · refine subScan_digit (ih _ le_rfl) ?_ (by omega)
      rw [← digit, ← digit]
      omega
    · refine subScan_digit (ih _ (Nat.zero_le 1)) ?_ (by omega)
      rw [← digit, ← digit]
      omega

/-- Of two values of one width, the borrow that is lost is `M(w)`. -/
theorem subDigits_eq {w a b : Nat} (ha : a < modulus w) (hb : b < modulus w) :
    subDigits w a b = if a < b then a + modulus w - b else a - b := by
  have h := subScan_eq a b (2 * w) 0 (Nat.zero_le 1)
  have hM : (16 ^ (2 * w) : ℤ) = modulus w := by rw [modulus_eq_pow_digits, Nat.cast_pow, Nat.cast_ofNat]
  rw [← subDigits, hM, pow_zero, pow_zero, Nat.div_one, Nat.div_one, one_mul, Nat.cast_zero, sub_zero] at h
  split_ifs with hlt
  · rw [← Int.add_emod_right, Int.emod_eq_of_lt (by omega) (by omega)] at h
    omega
  · rw [Int.emod_eq_of_lt (by omega) (by omega)] at h
    omega

/-! ### Multiplication (42_arith.md R184) -/

/-- `unitEvents` of the low `n` digits: the value `j + 1` once per unit of digit `j`, the highest first. -/
def placeEvents (n x : Nat) : List Nat :=
  (List.range n).reverse.flatMap fun j => List.replicate (digit x j) (j + 1)

theorem unitEvents_eq_placeEvents (w x : Nat) : unitEvents w x = placeEvents (2 * w) x := rfl

@[simp] theorem placeEvents_zero (x : Nat) : placeEvents 0 x = [] := rfl

@[simp] theorem placeEvents_succ (n x : Nat) :
    placeEvents (n + 1) x = List.replicate (digit x n) (n + 1) ++ placeEvents n x := by
  rw [placeEvents, List.range_succ, List.reverse_append, List.reverse_singleton, List.singleton_append,
    List.flatMap_cons, placeEvents]

@[simp] theorem unitEvents_zero (w : Nat) : unitEvents w 0 = [] :=
  List.flatMap_eq_nil_iff.2 fun j _ => by rw [digit, Nat.zero_div, Nat.zero_mod, List.replicate_zero]

/-- No digit is above 15. -/
theorem placeEvents_length_le (n x : Nat) : (placeEvents n x).length ≤ 15 * n := by
  induction n with
  | zero => exact le_rfl
  | succ n ih =>
    have hd := digit_lt x n
    rw [placeEvents_succ, List.length_append, List.length_replicate]
    omega

/-- The events of the low `n` digits depend on these alone. -/
theorem placeEvents_mod_pow (n x : Nat) : placeEvents n (x % 16 ^ n) = placeEvents n x :=
  List.flatMap_congr fun j hj => by rw [digit_mod_pow (List.mem_range.1 (List.mem_reverse.1 hj))]

/-- The leading digit has nothing above it to cut off. -/
theorem digit_eq_div_of_lt {v j : Nat} (h : v < 16 ^ (j + 1)) : digit v j = v / 16 ^ j :=
  Nat.mod_eq_of_lt (Nat.div_lt_of_lt_mul (by rwa [← pow_succ]))

/-- One unit more of the leading digit `k` is one event more, before those of the rest. -/
theorem placeEvents_add_pow {n k x : Nat} (hk : k < n) (hx : x + 16 ^ k < 16 ^ (k + 1)) :
    placeEvents n (x + 16 ^ k) = (k + 1) :: placeEvents n x := by
  induction n with
  | zero => cases hk
  | succ n ih =>
    have hx' : x < 16 ^ (k + 1) := (Nat.le_add_right _ _).trans_lt hx
    rw [placeEvents_succ, placeEvents_succ]
    rcases Nat.lt_succ_iff_lt_or_eq.1 hk with hlt | rfl
    · have above {y : Nat} (hy : y < 16 ^ (k + 1)) : digit y n = 0 :=
        digit_eq_zero_of_lt (hy.trans_le (Nat.pow_le_pow_right (by decide) hlt))
      rw [ih hlt, above hx, above hx']
      rfl
    · rw [← placeEvents_mod_pow, Nat.add_mod_right, placeEvents_mod_pow, digit_eq_div_of_lt hx,
        digit_eq_div_of_lt hx', Nat.add_div_right _ (by positivity), List.replicate_succ, List.cons_append]

/-- The unit that `mulw` takes from its counter is one of the counter's highest digit, in place `k`: what remains is
`x`, and the unit's event comes before those of `x`. -/
theorem exists_leading_unit {w c : Nat} (hc : c ≠ 0) (h : c < modulus w) :
    ∃ k x, c = x + 16 ^ k ∧ sdcDigits w c = k + 1 ∧ unitEvents w c = (k + 1) :: unitEvents w x := by
  rw [modulus_eq_pow_digits] at h
  have hpos : 1 ≤ sdcDigits w c := sdcScan_pos hc h
  have hle : sdcDigits w c ≤ 2 * w := sdcScan_le h _
  have hlt : c < 16 ^ sdcDigits w c := lt_pow_sdcScan h
  obtain ⟨k, hk⟩ := Nat.exists_eq_add_of_le' hpos
  rw [hk] at hle hlt
  have hlead : 16 ^ k ≤ c := by
    by_contra hlow
    have hcount : sdcDigits w c ≤ k := sdcScan_le (Nat.lt_of_not_le hlow) _
    omega
  obtain ⟨x, rfl⟩ := Nat.exists_eq_add_of_le' hlead
  exact ⟨k, x, rfl, hk, placeEvents_add_pow hle hlt⟩

/-- A pass of the loop that takes a unit of digit `k` from its counter. -/
theorem mulLoop_unit {w k x : Nat} (hk : sdcDigits w (x + 16 ^ k) = k + 1) (a fuel acc : Nat) :
    mulLoop w a (fuel + 1) (x + 16 ^ k) acc =
      ((mulLoop w a fuel x ((acc + a * 16 ^ k) % modulus w)).1,
        (k + 1) :: (mulLoop w a fuel x ((acc + a * 16 ^ k) % modulus w)).2) := by
  have hpow : 0 < 16 ^ k := by positivity
  simp only [mulLoop, if_neg (show x + 16 ^ k ≠ 0 by omega), hk, Nat.add_sub_cancel, shlDigits, Nat.add_mod_mod]

/-- With its counter used up the loop stops, whatever the fuel. -/
theorem mulLoop_zero_counter {w acc : Nat} (hacc : acc < modulus w) (a fuel : Nat) :
    mulLoop w a fuel 0 acc = ((acc + a * 0) % modulus w, unitEvents w 0) := by
  have hstop : mulLoop w a fuel 0 acc = (acc, []) := by cases fuel <;> rfl
  rw [hstop, Nat.mul_zero, Nat.add_zero, Nat.mod_eq_of_lt hacc, unitEvents_zero]

/-- With fuel for every unit of the counter's digits, the loop adds the product to the accumulator. -/
theorem mulLoop_eq {w acc counter fuel : Nat} (hacc : acc < modulus w) (hc : counter < modulus w)
    (hfuel : (unitEvents w counter).length ≤ fuel) (a : Nat) :
    mulLoop w a fuel counter acc = ((acc + a * counter) % modulus w, unitEvents w counter) := by
  induction fuel generalizing counter acc with
  | zero =>
    obtain rfl : counter = 0 := by
      by_contra h0
      obtain ⟨k, x, -, -, hevents⟩ := exists_leading_unit h0 hc
      rw [hevents] at hfuel
      cases hfuel
    exact mulLoop_zero_counter hacc a 0
  | succ fuel ih =>
    rcases eq_or_ne counter 0 with rfl | h0
    · exact mulLoop_zero_counter hacc a _
    · obtain ⟨k, x, rfl, hk, hevents⟩ := exists_leading_unit h0 hc
      rw [hevents] at hfuel ⊢
      rw [mulLoop_unit hk, ih (Nat.mod_lt _ (modulus_pos w)) ((Nat.le_add_right _ _).trans_lt hc)
        (Nat.le_of_succ_le_succ hfuel), Nat.mod_add_mod, show acc + a * 16 ^ k + a * x = acc + a * (x + 16 ^ k) by ring]

/-- The bound on the passes cuts nothing short (log 18). -/
theorem mulw_eq {w b : Nat} (hb : b < modulus w) (a : Nat) : mulw w a b = (a * b % modulus w, unitEvents w b) := by
  have hfuel := placeEvents_length_le (2 * w) b
  rw [mulw, mulLoop_eq (modulus_pos w) hb (by rw [unitEvents_eq_placeEvents]; omega), Nat.zero_add]

end Sys2Proof.Proofs

/-! PROOFS. A running command emits its progress events and then commits (50_command_cycle.md R260, R263); for a
command without events see `runsTo_completed_of_no_events`. -/

namespace Sys2Proof.Proofs

open Sys2Proof Sys2Proof.Machine

/-- The state in which a command that runs in `s` ends when no other agent moves. -/
def afterRun (s : State) (l : Latched) : State :=
  { s.commit l with
    progress := (l.pending.map (BitVec.ofNat 16)).getLastD s.progress
    status := { s.status with done := true, prog := s.status.prog || !l.pending.isEmpty } }

/-- With no event left it is the commit. -/
theorem afterRun_of_no_events (s : State) {l : Latched} (hp : l.pending = []) : afterRun s l = s.commit l := by
  simp only [afterRun, State.commit, hp, List.map_nil, List.getLastD_nil, List.isEmpty_nil, Bool.not_true,
    Bool.or_false]

/-- It is the same before and after an event. -/
theorem afterRun_emitProgress (s : State) {l : Latched} {k : Nat} {rest : List Nat} (hp : l.pending = k :: rest) :
    afterRun (s.emitProgress l k rest) { l with pending := rest } = afterRun s l := by
  simp only [afterRun, State.commit, State.emitProgress, hp, List.map_cons, List.getLastD_cons, List.isEmpty_cons,
    Bool.not_false, Bool.or_true, Bool.true_or]

/-- The first event of a run, before the run of the others. -/
theorem runsTo_cons {s t : State} {l : Latched} {k : Nat} {rest : List Nat} (hs : s.seq = .exec l)
    (hp : l.pending = k :: rest) (h : RunsTo (s.emitProgress l k rest) rest t) : RunsTo s (k :: rest) t := by
  have hrun (n : Nat) : engineRun (n + 1) s = engineRun n (s.emitProgress l k rest) := by
    rw [engineRun, engineStep_event hs hp]
  obtain ⟨hexec, hend⟩ := h
  refine ⟨fun j hj => ?exec, (hrun _).trans hend⟩
  case exec =>
    cases j with
    | zero => exact ⟨busy_of_exec s l hs, rfl, rfl, fun hpos => absurd hpos (Nat.lt_irrefl 0)⟩
    | succ j =>
      obtain ⟨hbusy, hregs, hresult, hevent⟩ := hexec j (Nat.le_of_succ_le_succ hj)
      rw [hrun]
      refine ⟨hbusy, hregs, hresult, fun _ => ?_⟩
      cases j with
      | zero => exact ⟨rfl, rfl⟩
      | succ j => exact hevent (Nat.succ_pos j)

theorem runsTo_afterRun {s : State} {l : Latched} (hs : s.seq = .exec l) : RunsTo s l.pending (afterRun s l) := by
  induction hp : l.pending generalizing s l with
  | nil =>
    refine ⟨fun j hj => ?exec, ?commit⟩
    case exec =>
      obtain rfl : j = 0 := Nat.le_zero.1 hj
      exact ⟨busy_of_exec s l hs, rfl, rfl, fun hpos => absurd hpos (Nat.lt_irrefl 0)⟩
    case commit => rw [afterRun_of_no_events s hp, ← engineStep_commit hs hp]; rfl
  | cons k rest ih =>
    rw [← afterRun_emitProgress s hp]
    exact runsTo_cons hs hp (ih rfl rfl)

/-- From its issue a command runs to the state that `completed` writes out. -/
theorem runsTo_completed (s : State) (w : Word) (l : Latched) :
    RunsTo (startedIssue s w l) l.pending
      (completed s w (writeRegs s.regs l.writes) (l.result.getD s.result) l.pending) := by
  have hlast : (l.pending.map (BitVec.ofNat 16)).getLastD 0#16 = BitVec.ofNat 16 (l.pending.getLastD 0) :=
    List.getLastD_map
  have hend : afterRun (startedIssue s w l) l =
      completed s w (writeRegs s.regs l.writes) (l.result.getD s.result) l.pending := by
    simp only [afterRun, State.commit, startedIssue, completed, hlast, Bool.false_or]
  rw [← hend]
  exact runsTo_afterRun rfl

end Sys2Proof.Proofs

/-! PROOFS. The digit-shift and arithmetic commands (42_arith.md R181 to R187): each writes one register in place, MUL
with the progress events of its loop. -/

namespace Sys2Proof.Proofs

open Sys2Proof Sys2Proof.Machine

/-! ### The shapes that the commands share -/

section
variable {s : State} {i : Instr} {a b : Reg}

/-- A command whose checks latch the write of `(w, v)` to register `a` and progress events. -/
theorem exec_completes_events {c : Except CmdError Latched} {operands : List FixedInt} {w : Byte} {v : Nat}
    {events : List Nat} (idle : s.busy = false) (hexec : exec i s = issue i s c)
    (hc : c = .ok { latchWrite i operands a w v with pending := events }) (hv : v < modulus w.toNat) :
    ∃ m, exec i s = .next m ∧
      RunsTo m events (completed s (encode i) (withReg s.regs a w v) s.result events) := by
  refine ⟨startedIssue s (encode i) { latchWrite i operands a w v with pending := events }, ?_, ?_⟩
  · rw [hexec, hc, issue_next, issueWord_eq_startedIssue idle]
  · rw [← writeReg_eq_withReg s.regs a hv]
    exact runsTo_completed s (encode i) _

/-- An operation of two operands of one width, in place, with the progress events `g`. -/
theorem binaryWrite_completes (f : FixedInt → FixedInt → Nat) (g : FixedInt → FixedInt → List Nat)
    (hf : ∀ x y, f x y < modulus x.width.toNat) (idle : s.busy = false) (ha : (s.reg a).width ≠ 0#8)
    (hab : (s.reg b).width = (s.reg a).width)
    (hexec : exec i s = issue i s (do
      let x ← readOperand s a
      let y ← readOperand s b
      checkSameWidth x y
      return { latchWrite i [x, y] a x.width (f x y) with pending := g x y })) :
    ∃ m, exec i s = .next m ∧
      RunsTo m (g (s.reg a) (s.reg b))
        (completed s (encode i) (withReg s.regs a (s.reg a).width (f (s.reg a) (s.reg b))) s.result
          (g (s.reg a) (s.reg b))) := by
  refine exec_completes_events (operands := [s.reg a, s.reg b]) idle hexec ?latches (hf _ _)
  case latches =>
    rw [readOperand_bind_ok_iff, readOperand_bind_ok_iff, checkSameWidth_bind_ok_iff]
    exact ⟨ha, hab ▸ ha, hab.symm, rfl⟩

end

/-! ### The commands -/

/-- Settles O24: the operand is shifted as a number, and the digits of a truncated shift are known. -/
theorem shlShiftsDigits : Obligations.ShlShiftsDigits := by
  unfold Obligations.ShlShiftsDigits
  intro a k s idle ha
  obtain ⟨m, hexec, hrun⟩ := exec_completes_write (i := .shl a k) (operands := [s.reg a]) idle rfl
    ((readOperand_bind_ok_iff s _ _ a).2 ⟨ha, rfl⟩) (shlDigits_lt _ _ _)
  exact ⟨m, _, hexec, hrun, rfl, fun j hj => digit_shlDigits hj _ _⟩

/-- Settles O25: the ripple carry is the truncated sum. -/
theorem addIsSumModuloWidth : Obligations.AddIsSumModuloWidth := by
  unfold Obligations.AddIsSumModuloWidth
  intro a b s idle ha hab
  have h := binaryWrite_completes (i := .add a b) (fun x y => addDigits x.width.toNat x.val y.val) (fun _ _ => [])
    (fun _ _ => addDigits_lt _ _ _) idle ha hab rfl
  rwa [addDigits_eq] at h

/-- Settles O26: the ripple borrow of two values of one width is their difference, `M(w)` more where it wraps. -/
theorem subIsDifferenceModuloWidth : Obligations.SubIsDifferenceModuloWidth := by
  unfold Obligations.SubIsDifferenceModuloWidth
  intro a b s idle ha hab
  have h := binaryWrite_completes (i := .sub a b) (fun x y => subDigits x.width.toNat x.val y.val) (fun _ _ => [])
    (fun _ _ => subDigits_lt _ _ _) idle ha hab rfl
  rwa [subDigits_eq (val_lt _) (val_lt_of_width_eq hab.symm)] at h

/-- Settles O27: the loop of `mulw` gives the truncated product and the unit events of the multiplier. -/
theorem mulIsProductWithUnitEvents : Obligations.MulIsProductWithUnitEvents := by
  unfold Obligations.MulIsProductWithUnitEvents
  intro a b s idle ha hab
  have h := binaryWrite_completes (i := .mul a b) (fun x y => (mulw x.width.toNat x.val y.val).1)
    (fun x y => (mulw x.width.toNat x.val y.val).2) (fun _ _ => mulw_lt _ _ _) idle ha hab rfl
  rwa [mulw_eq (val_lt_of_width_eq hab.symm)] at h

/-! ### Addition undone by subtraction (42_arith.md R187) -/

@[simp] theorem completed_reg (s : State) (w : Word) (regs : Vector FixedInt 16) (result : Word) (events : List Nat)
    (r : Reg) : (completed s w regs result events).reg r = regs[r] := rfl

@[simp] theorem completed_busy (s : State) (w : Word) (regs : Vector FixedInt 16) (result : Word)
    (events : List Nat) : (completed s w regs result events).busy = false := rfl

@[simp] theorem withReg_self (regs : Vector FixedInt 16) (r : Reg) (w : Byte) (v : Nat) :
    (withReg regs r w v)[r] = ⟨w, v⟩ := by
  simp [withReg]

theorem withReg_other (regs : Vector FixedInt 16) {r q : Reg} (w : Byte) (v : Nat) (h : q ≠ r) :
    (withReg regs r w v)[q] = regs[q] := by
  have hne : r.val ≠ q.val := fun e => h (Fin.ext e.symm)
  simp [withReg, hne]

/-- A number below `M(w)` is its own value at width `w`. -/
theorem val_mk_of_lt {w : Byte} {v : Nat} (h : v < modulus w.toNat) : (⟨w, v⟩ : FixedInt).val = v :=
  val_of_wf (f := ⟨w, v⟩) h

/-- The subtraction of `y` from the sum with `y`, each with its wrap at `M`, gives back `x`. -/
theorem wrapped_sub_of_wrapped_add {M x y : Nat} (hx : x < M) (hy : y < M) :
    (if (x + y) % M < y then (x + y) % M + M - y else (x + y) % M - y) = x := by
  rcases Nat.lt_or_ge (x + y) M with hlt | hge
  · rw [Nat.mod_eq_of_lt hlt, if_neg (by omega), Nat.add_sub_cancel]
  · rw [Nat.mod_eq_sub_mod hge, Nat.mod_eq_of_lt (by omega), if_pos (by omega)]
    omega

/-- Settles O34: SUB starts from the state in which ADD ended, with the other register as it was. -/
theorem addThenSubRestoresValue : Obligations.AddThenSubRestoresValue := by
  unfold Obligations.AddThenSubRestoresValue
  intro a b s idle hne ha hab
  have hx := val_lt (s.reg a)
  obtain ⟨m, hadd, radd⟩ := addIsSumModuloWidth a b s idle ha hab
  have hm := engineRun_one_of_runsTo radd
  have hma : (engineRun 1 m).reg a =
      ⟨(s.reg a).width, ((s.reg a).val + (s.reg b).val) % modulus (s.reg a).width.toNat⟩ := by
    rw [hm, completed_reg, withReg_self, modulus]
  have hmr (r : Reg) (hr : r ≠ a) : (engineRun 1 m).reg r = s.reg r := by
    rw [hm, completed_reg, withReg_other _ _ _ hr, State.reg]
  have hmb := hmr b hne.symm
  obtain ⟨n, hsub, rsub⟩ := subIsDifferenceModuloWidth a b (engineRun 1 m) (by rw [hm, completed_busy])
    (by rw [hma]; exact ha) (by rw [hma, hmb]; exact hab)
  rw [hma, hmb, val_mk_of_lt (Nat.mod_lt _ (modulus_pos _)), ← modulus,
    wrapped_sub_of_wrapped_add hx (val_lt_of_width_eq hab.symm)] at rsub
  refine ⟨m, n, hadd, hsub, ?_⟩
  rw [engineRun_one_of_runsTo rsub]
  refine ⟨rfl, ?width, ?value, fun r hr => ?others⟩
  case width => rw [completed_reg, withReg_self]
  case value => rw [completed_reg, withReg_self, val_mk_of_lt hx]
  case others => rw [completed_reg, withReg_other _ _ _ hr, ← hmr r hr, State.reg]

end Sys2Proof.Proofs

/-! PROOFS. The division commands (43_divide.md R201 to R204): a passing one writes the floor quotient and remainder of
the latched values, with no progress event (R205). -/

namespace Sys2Proof.Proofs

open Sys2Proof Sys2Proof.Machine

/-- The property that fixes the pair of a division (43_divide.md R201): it is exact and not only modulo `M(w)`. -/
theorem divrem_spec {d : Nat} (hd : d ≠ 0) (a : Nat) :
    a = (divrem a d).1 * d + (divrem a d).2 ∧ (divrem a d).2 < d ∧ (divrem a d).1 ≤ a :=
  ⟨(Nat.div_add_mod' a d).symm, Nat.mod_lt a (Nat.pos_of_ne_zero hd), Nat.div_le_self a d⟩

/-- A commit of two values that fit their widths, the second destination after the first. -/
theorem writeRegs_pair (regs : Vector FixedInt 16) (a b : Reg) {u w : Byte} {q r : Nat} (hq : q < modulus u.toNat)
    (hr : r < modulus w.toNat) : writeRegs regs [(a, ⟨u, q⟩), (b, ⟨w, r⟩)] = withReg (withReg regs a u q) b w r := by
  simp only [writeRegs, writeReg_eq_withReg _ _ hq, writeReg_eq_withReg _ _ hr]

/-- A division in place, of two operands of one width and a divisor that is not 0. -/
theorem division_completes {s : State} {i : Instr} {a b : Reg} (f : FixedInt → FixedInt → Nat)
    (hf : ∀ x y, f x y < modulus x.width.toNat) (idle : s.busy = false) (ha : (s.reg a).width ≠ 0#8)
    (hab : (s.reg b).width = (s.reg a).width) (hb : (s.reg b).val ≠ 0)
    (hexec : exec i s = issue i s (do
      let x ← readOperand s a
      let y ← readOperand s b
      checkSameWidth x y
      checkDivisor y
      return latchWrite i [x, y] a x.width (f x y))) :
    ∃ m, exec i s = .next m ∧
      RunsTo m [] (completed s (encode i) (withReg s.regs a (s.reg a).width (f (s.reg a) (s.reg b))) s.result []) := by
  refine exec_completes_write (operands := [s.reg a, s.reg b]) idle hexec ?latches (hf _ _)
  case latches =>
    rw [readOperand_bind_ok_iff, readOperand_bind_ok_iff, checkSameWidth_bind_ok_iff, checkDivisor_bind_ok_iff]
    exact ⟨ha, hab ▸ ha, hab.symm, hb, rfl⟩

/-- What DIVREM latches when its checks pass: both values come from the operands as they were at issue, so the
destinations may be the sources (43_divide.md R202). -/
def divremLatched (a b c d : Reg) (s : State) : Latched :=
  { instr := .divrem a b c d
    operands := [s.reg c, s.reg d]
    writes := [(a, ⟨(s.reg c).width, (divrem (s.reg c).val (s.reg d).val).1⟩),
      (b, ⟨(s.reg c).width, (divrem (s.reg c).val (s.reg d).val).2⟩)]
    result := none
    pending := [] }

theorem exec_divrem_of_checks {a b c d : Reg} {s : State} (hc : (s.reg c).width ≠ 0#8)
    (hd : (s.reg d).width = (s.reg c).width) (hab : a ≠ b) (hz : (s.reg d).val ≠ 0) :
    exec (.divrem a b c d) s = issue (.divrem a b c d) s (.ok (divremLatched a b c d s)) := by
  rw [exec, execDivrem]
  congr 1
  rw [readOperand_bind_ok_iff, readOperand_bind_ok_iff, checkSameWidth_bind_ok_iff, checkDistinct_bind_ok_iff,
    checkDivisor_bind_ok_iff]
  exact ⟨hc, hd ▸ hc, hd.symm, hab, hz, rfl⟩

/-! ### The commands -/

/-- Settles O28: both values fit the width of the dividend, so the commit stores the pair itself. -/
theorem divremWritesQuotientAndRemainder : Obligations.DivremWritesQuotientAndRemainder := by
  unfold Obligations.DivremWritesQuotientAndRemainder
  intro a b c d s idle hc hd hab hz
  have hx := val_lt (s.reg c)
  refine ⟨startedIssue s (encode (.divrem a b c d)) (divremLatched a b c d s), _, _, ?issue, ?run,
    divrem_spec hz (s.reg c).val⟩
  case issue => rw [exec_divrem_of_checks hc hd hab hz, issue_next, issueWord_eq_startedIssue idle]
  case run =>
    rw [← writeRegs_pair s.regs a b (divrem_quotient_lt hx _) (divrem_remainder_lt hx _)]
    exact runsTo_completed_of_no_events s _ rfl

/-- Settles O29: the two halves of one `divrem`. -/
theorem divAndModAreFloorDivision : Obligations.DivAndModAreFloorDivision := by
  unfold Obligations.DivAndModAreFloorDivision
  intro a b s idle ha hab hb
  refine ⟨?div, ?mod⟩
  case div =>
    exact division_completes (fun x y => (divrem x.val y.val).1) (fun x _ => divrem_quotient_lt (val_lt x) _) idle ha
      hab hb rfl
  case mod =>
    exact division_completes (fun x y => (divrem x.val y.val).2) (fun x _ => divrem_remainder_lt (val_lt x) _) idle ha
      hab hb rfl

end Sys2Proof.Proofs

/-! PROOFS. The modular commands (44_modexp.md R221 to R225, R229): the double-width path keeps every bit of the
product, and square-and-multiply takes one multiplier per pass, in the order of `powMultipliers`. -/

namespace Sys2Proof.Proofs

open Sys2Proof Sys2Proof.Machine

/-! ### Modular multiplication (44_modexp.md R221) -/

/-- The zero digits above a number emit nothing. -/
theorem placeEvents_of_lt {n k x : Nat} (hx : x < 16 ^ n) (hnk : n ≤ k) : placeEvents k x = placeEvents n x := by
  induction k, hnk using Nat.le_induction with
  | base => rfl
  | succ k hnk ih =>
    have hzero : digit x k = 0 := digit_eq_zero_of_lt (hx.trans_le (Nat.pow_le_pow_right (by decide) hnk))
    rw [placeEvents_succ, hzero, List.replicate_zero, List.nil_append, ih]

/-- At double width the events of a multiplier are the same. -/
theorem unitEvents_double {w x : Nat} (hx : x < modulus w) : unitEvents (2 * w) x = unitEvents w x :=
  placeEvents_of_lt (by rwa [← modulus_eq_pow_digits]) (by omega)

/-- At double width a product loses no bit. -/
theorem mul_lt_modulus_double {w a x : Nat} (ha : a < modulus w) (hx : x < modulus w) : a * x < modulus (2 * w) :=
  calc a * x < modulus w * modulus w := Nat.mul_lt_mul'' ha hx
    _ = modulus (2 * w) := by rw [modulus, modulus, ← pow_add, two_mul]

/-- At single width a product loses no bit when the digit counts of its factors fit together. -/
theorem mul_lt_modulus_of_sdcDigits_le {w a x : Nat} (ha : a < modulus w) (hx : x < modulus w)
    (h : sdcDigits w a + sdcDigits w x ≤ 2 * w) : a * x < modulus w := by
  rw [modulus_eq_pow_digits] at ha hx ⊢
  calc a * x < 16 ^ sdcDigits w a * 16 ^ sdcDigits w x := Nat.mul_lt_mul'' (lt_pow_sdcScan ha) (lt_pow_sdcScan hx)
    _ = 16 ^ (sdcDigits w a + sdcDigits w x) := (pow_add _ _ _).symm
    _ ≤ 16 ^ (2 * w) := Nat.pow_le_pow_right (by decide) h

theorem mod_lt_modulus {w n : Nat} (hn : n ≠ 0) (hnw : n < modulus w) (v : Nat) : v % n < modulus w :=
  (Nat.mod_lt v (Nat.pos_of_ne_zero hn)).trans hnw

/-- `mulmod` is exact on both paths, and its events are those of the multiplier on both. -/
theorem mulmodw_eq {w a x n : Nat} (ha : a < modulus w) (hx : x < modulus w) (hn : n ≠ 0) (hnw : n < modulus w) :
    mulmodw w a x n = (a * x % n, unitEvents w x) := by
  unfold mulmodw
  split
  next =>
    have hx' : x < modulus (2 * w) := hx.trans_le (modulus_mono (by omega))
    simp only [mulw_eq hx', divrem, Nat.mod_eq_of_lt (mul_lt_modulus_double ha hx), unitEvents_double hx,
      Nat.mod_eq_of_lt (mod_lt_modulus hn hnw _)]
  next h =>
    simp only [mulw_eq hx, divrem, Nat.mod_eq_of_lt (mul_lt_modulus_of_sdcDigits_le ha hx (Nat.not_lt.1 h))]

/-! ### The multipliers of square-and-multiply (44_modexp.md R223) -/

@[simp] theorem powMultipliers_zero (b m : Nat) : powMultipliers b 0 m = [] := rfl

/-- The working base of every higher bit is that of the bit below it, started from the square. -/
theorem squared_base_pow (b m i : Nat) :
    (if i = 0 then b * b % m else (b * b % m) ^ 2 ^ i % m) = b ^ 2 ^ (i + 1) % m := by
  split
  next h => rw [h, zero_add, pow_one, sq]
  next => rw [← Nat.pow_mod, ← sq, ← pow_mul, ← pow_succ']

/-- The lowest bit `c` of an exponent comes first: its own multiplication, and the squaring if a bit is left above. -/
theorem powMultipliers_bit (b m : Nat) (c : Bool) (k : Nat) : powMultipliers b (Nat.bit c k) m =
    (if c then [b] else []) ++ (if k = 0 then [] else b :: powMultipliers (b * b % m) k m) := by
  rcases eq_or_ne (Nat.bit c k) 0 with h0 | h0
  · obtain ⟨rfl, rfl⟩ := Nat.bit_eq_zero_iff.1 h0
    rfl
  · rw [powMultipliers, Nat.size_bit h0, List.range_succ_eq_map, List.flatMap_cons, List.flatMap_map]
    simp only [Nat.testBit_bit_zero, Nat.testBit_bit_succ, Nat.succ_lt_succ_iff, Nat.succ_ne_zero, if_true, if_false,
      Nat.succ_eq_add_one, ← squared_base_pow, powMultipliers]
    rcases eq_or_ne k 0 with rfl | hk
    · simp
    · simp [hk, Nat.size_pos, Nat.pos_of_ne_zero hk]

/-- An even exponent is halved, and the base squared. -/
theorem powMultipliers_even (b m : Nat) {k : Nat} (hk : k ≠ 0) :
    powMultipliers b (2 * k) m = b :: powMultipliers (b * b % m) k m := by
  have hbit := powMultipliers_bit b m false k
  rwa [if_neg (by decide), if_neg hk] at hbit

/-- An odd exponent is decremented, and the base multiplied in. -/
theorem powMultipliers_odd (b m k : Nat) : powMultipliers b (2 * k + 1) m = b :: powMultipliers b (2 * k) m := by
  have hodd := powMultipliers_bit b m true k
  have heven := powMultipliers_bit b m false k
  rw [if_pos rfl] at hodd
  rw [if_neg (by decide)] at heven
  exact hodd.trans (congrArg (b :: ·) heven.symm)

/-- A bit of the exponent has at most two multipliers. -/
theorem powMultipliers_length_le (b e m : Nat) : (powMultipliers b e m).length ≤ 2 * e.size := by
  rw [powMultipliers, List.length_flatMap]
  refine (List.sum_le_card_nsmul _ 2 ?bits).trans_eq ?count
  case bits =>
    refine List.forall_mem_map.2 fun i _ => ?_
    rw [List.length_append]
    split_ifs <;> simp
  case count => rw [List.length_map, List.length_range, smul_eq_mul, Nat.mul_comm]

/-! ### Modular exponentiation (44_modexp.md R223) -/

section
variable {w m base result : Nat} (hm : m ≠ 0) (hmw : m < modulus w) (hbase : base < modulus w)
include hm hmw hbase

/-- A pass of the loop with an even exponent. -/
theorem powLoop_even {k : Nat} (hk : k ≠ 0) (fuel : Nat) : powLoop w m (fuel + 1) base (2 * k) result =
    ((powLoop w m fuel (base * base % m) k result).1,
      unitEvents w base ++ (powLoop w m fuel (base * base % m) k result).2) := by
  have hex : 2 * k ≠ 0 := by omega
  rw [powLoop, if_neg hex, if_pos (Nat.mul_mod_right 2 k), mulmodw_eq hbase hbase hm hmw,
    Nat.mul_div_cancel_left k (by decide)]

/-- A pass of the loop with an odd exponent. -/
theorem powLoop_odd (hresult : result < modulus w) (fuel k : Nat) :
    powLoop w m (fuel + 1) base (2 * k + 1) result =
      ((powLoop w m fuel base (2 * k) (result * base % m)).1,
        unitEvents w base ++ (powLoop w m fuel base (2 * k) (result * base % m)).2) := by
  have hodd : (2 * k + 1) % 2 ≠ 0 := by omega
  rw [powLoop, if_neg (Nat.succ_ne_zero _), if_neg hodd, mulmodw_eq hresult hbase hm hmw, Nat.add_sub_cancel]

end

/-- What the loop of `powmod` still computes from its three variables: the result and the events. -/
def powRest (w m base ex result : Nat) : Nat × List Nat :=
  (if ex = 0 then result else result * base ^ ex % m, powEvents w base ex m)

/-- With its exponent used up the loop stops, whatever the fuel. -/
theorem powLoop_zero_exponent (w m fuel base result : Nat) :
    powLoop w m fuel base 0 result = powRest w m base 0 result := by
  cases fuel <;> rfl

/-- A pass with an even exponent keeps `result * base ^ ex` modulo `m`. -/
theorem powRest_even (w m base result : Nat) {k : Nat} (hk : k ≠ 0) :
    powRest w m base (2 * k) result = ((powRest w m (base * base % m) k result).1,
      unitEvents w base ++ (powRest w m (base * base % m) k result).2) := by
  have hvalue : result * (base * base % m) ^ k % m = result * base ^ (2 * k) % m := by
    rw [Nat.mul_mod, ← Nat.pow_mod, ← Nat.mul_mod, ← sq, ← pow_mul]
  have hex : 2 * k ≠ 0 := by omega
  simp only [powRest, powEvents, if_neg hex, if_neg hk, hvalue, powMultipliers_even base m hk, List.flatMap_cons]

/-- A pass with an odd exponent keeps `result * base ^ ex` modulo `m`. -/
theorem powRest_odd (w m base result k : Nat) :
    powRest w m base (2 * k + 1) result = ((powRest w m base (2 * k) (result * base % m)).1,
      unitEvents w base ++ (powRest w m base (2 * k) (result * base % m)).2) := by
  have hvalue : (if 2 * k = 0 then result * base % m else result * base % m * base ^ (2 * k) % m) =
      result * base ^ (2 * k + 1) % m := by
    split
    next h0 => rw [h0, zero_add, pow_one]
    next => rw [Nat.mod_mul_mod, pow_succ', Nat.mul_assoc]
  simp only [powRest, powEvents, if_neg (Nat.succ_ne_zero _), hvalue, powMultipliers_odd, List.flatMap_cons]

/-- With fuel for every multiplier, the loop multiplies `base ^ ex` into the result, modulo `m`. -/
theorem powLoop_eq {w m base ex result fuel : Nat} (hm : m ≠ 0) (hmw : m < modulus w) (hbase : base < modulus w)
    (hresult : result < modulus w) (hfuel : (powMultipliers base ex m).length ≤ fuel) :
    powLoop w m fuel base ex result = powRest w m base ex result := by
  induction fuel generalizing base ex result with
  | zero =>
    obtain rfl : ex = 0 := by
      by_contra h0
      obtain ⟨k, rfl | rfl⟩ := Nat.even_or_odd' ex
      · rw [powMultipliers_even base m (by omega)] at hfuel
        cases hfuel
      · rw [powMultipliers_odd] at hfuel
        cases hfuel
    exact powLoop_zero_exponent w m 0 base result
  | succ fuel ih =>
    rcases eq_or_ne ex 0 with rfl | h0
    · exact powLoop_zero_exponent w m _ base result
    obtain ⟨k, rfl | rfl⟩ := Nat.even_or_odd' ex
    · have hk : k ≠ 0 := by omega
      rw [powMultipliers_even base m hk] at hfuel
      rw [powLoop_even hm hmw hbase hk, powRest_even w m base result hk,
        ih (mod_lt_modulus hm hmw _) hresult (Nat.le_of_succ_le_succ hfuel)]
    · rw [powMultipliers_odd] at hfuel
      rw [powLoop_odd hm hmw hbase hresult, powRest_odd,
        ih hbase (mod_lt_modulus hm hmw _) (Nat.le_of_succ_le_succ hfuel)]

/-- A byte is eight bits. -/
theorem size_le_of_lt_modulus {w e : Nat} (he : e < modulus w) : e.size ≤ 8 * w :=
  Nat.size_le.2 (by rwa [pow_mul])

/-- The bound on the passes cuts nothing short (log 18). -/
theorem powmodw_eq {w b e m : Nat} (hb : b < modulus w) (he : e < modulus w) (hm : m ≠ 0) (hmw : m < modulus w) :
    powmodw w b e m = (if e = 0 then 1 else b ^ e % m, powEvents w b e m) := by
  have hone : 1 < modulus w := Nat.lt_of_le_of_lt (Nat.pos_of_ne_zero hm) hmw
  have hfuel := (powMultipliers_length_le b e m).trans (Nat.mul_le_mul_left 2 (size_le_of_lt_modulus he))
  rw [powmodw, powLoop_eq hm hmw hb hone (hfuel.trans (by omega)), powRest, one_mul]

/-! ### The commands -/

/-- The shape of the modular commands: the operands `p`, `q` and `r` of one width, with `r` not 0, give the value and
the events of `f`, the value to register `a`. -/
theorem modular_completes {s : State} {i : Instr} {a p q r : Reg} {v : Nat} {events : List Nat}
    (f : Nat → Nat → Nat → Nat → Nat × List Nat) (idle : s.busy = false) (hp : (s.reg p).width ≠ 0#8)
    (hq : (s.reg q).width = (s.reg p).width) (hr : (s.reg r).width = (s.reg p).width) (hz : (s.reg r).val ≠ 0)
    (hexec : exec i s = issue i s (do
      let x ← readOperand s p
      let y ← readOperand s q
      let n ← readOperand s r
      checkSameWidth x y
      checkSameWidth x n
      checkDivisor n
      let e := f x.width.toNat x.val y.val n.val
      return { latchWrite i [x, y, n] a x.width e.1 with pending := e.2 }))
    (hf : f (s.reg p).width.toNat (s.reg p).val (s.reg q).val (s.reg r).val = (v, events))
    (hv : v < modulus (s.reg p).width.toNat) :
    ∃ m, exec i s = .next m ∧
      RunsTo m events (completed s (encode i) (withReg s.regs a (s.reg p).width v) s.result events) := by
  refine exec_completes_events (operands := [s.reg p, s.reg q, s.reg r]) idle hexec ?latches hv
  case latches =>
    rw [readOperand_bind_ok_iff, readOperand_bind_ok_iff, readOperand_bind_ok_iff, checkSameWidth_bind_ok_iff,
      checkSameWidth_bind_ok_iff, checkDivisor_bind_ok_iff]
    refine ⟨hp, hq ▸ hp, hr ▸ hp, hq.symm, hr.symm, hz, ?_⟩
    rw [hf]
    rfl

/-- Settles O30: both paths of `mulmod` are exact, with the unit events of the multiplier. -/
theorem mulmodIsExactOnBothPaths : Obligations.MulmodIsExactOnBothPaths := by
  unfold Obligations.MulmodIsExactOnBothPaths
  intro a b c s idle ha hb hc hz
  have hn := val_lt_of_width_eq hc.symm
  exact modular_completes mulmodw idle ha hb hc hz rfl
    (mulmodw_eq (val_lt _) (val_lt_of_width_eq hb.symm) hz hn) (mod_lt_modulus hz hn _)

/-- Settles O31: the loop of `powmod` computes the modular power, which the destination has room for. -/
theorem powmodIsModularPower : Obligations.PowmodIsModularPower := by
  unfold Obligations.PowmodIsModularPower
  intro a b c d s idle hb hc hd hz
  have hpow := powmodw_eq (val_lt (s.reg b)) (val_lt_of_width_eq hc.symm) hz (val_lt_of_width_eq hd.symm)
  have hv := powmodw_lt (one_le_toNat_of_ne_zero hb) (s.reg b).val (s.reg c).val (s.reg d).val
  rw [hpow] at hv
  exact modular_completes powmodw idle hb hc hd hz rfl hpow hv

/-! ### The exchange (44_modexp.md R229) -/

/-- One side of the exchange: the peer's public value to the own exponent. Neither exponent is 0, so neither power is
the constant 1 of R223. -/
theorem powmodw_powmodw {w g x y p : Nat} (hp : p ≠ 0) (hx : 1 ≤ x) (hy : 1 ≤ y) (hgw : g < modulus w)
    (hxw : x < modulus w) (hyw : y < modulus w) (hpw : p < modulus w) :
    (powmodw w (powmodw w g y p).1 x p).1 = g ^ (x * y) % p := by
  have hpublic : (powmodw w g y p).1 = g ^ y % p := by
    rw [powmodw_eq hgw hyw hp hpw, if_neg (Nat.ne_of_gt hy)]
  calc (powmodw w (powmodw w g y p).1 x p).1
      = (g ^ y % p) ^ x % p := by
        rw [hpublic, powmodw_eq (mod_lt_modulus hp hpw _) hxw hp hpw, if_neg (Nat.ne_of_gt hx)]
    _ = g ^ (x * y) % p := by rw [← Nat.pow_mod, ← pow_mul, Nat.mul_comm]

/-- Settles O35: the two sides differ in the order of the exponents. -/
theorem powmodMakesExchangesAgree : Obligations.PowmodMakesExchangesAgree := by
  unfold Obligations.PowmodMakesExchangesAgree
  intro w g x y p hp hx hy hgw hxw hyw hpw
  refine ⟨powmodw_powmodw hp hx hy hgw hxw hyw hpw, ?other⟩
  case other => rw [powmodw_powmodw hp hy hx hgw hyw hxw hpw, Nat.mul_comm]

end Sys2Proof.Proofs

/-! PROOFS. Issue (50_command_cycle.md R252 to R257): a CMD write while idle runs the word's command, a busy engine
turns a command away, and what a command latches is a function of the registers it reads and of WMAX. -/

namespace Sys2Proof.Proofs

open Sys2Proof Sys2Proof.Machine

/-! ### The engine's state at issue (50_command_cycle.md R252) -/

/-- Settles O6: the write is the issue of its word, which is that of the command, and the bus address reaches CMD. -/
theorem cmdWriteRunsDecodedCommand : Obligations.CmdWriteRunsDecodedCommand := by
  unfold Obligations.CmdWriteRunsDecodedCommand
  intro s w i rest idle hw
  have hoffset : step { s with schedule := .mmioWrite 0x00C 4 w :: rest } = exec i { s with schedule := rest } := by
    rw [step_writeCmd_of_idle s idle, runWord_of_ok hw]
  refine ⟨hoffset, ?bus⟩
  case bus => rw [step_cons, perform_memWrite_base _ _ _ _ (by decide), ← step_cons, hoffset]

/-- Settles O8: every command is one issue, which BUSY turns away. -/
theorem execWhileBusyChangesOnlyAccerr : Obligations.ExecWhileBusyChangesOnlyAccerr := by
  unfold Obligations.ExecWhileBusyChangesOnlyAccerr
  intro i s hbusy
  obtain ⟨c, hexec⟩ := exec_next i s
  rw [hexec, issueWord_of_busy hbusy]
  rfl

/-! ### What the checks and the latching see (50_command_cycle.md R257) -/

theorem checkWidth_congr {s s' : State} (h : s'.wmax = s.wmax) (k : Byte) : checkWidth s' k = checkWidth s k := by
  rw [checkWidth, checkWidth, h]

theorem readOperand_congr {s s' : State} {r : Reg} (h : s'.reg r = s.reg r) : readOperand s' r = readOperand s r := by
  rw [readOperand, readOperand, h]

/-- The issue of command `i` in `s` and in `s'` has one outcome of its checks and its latching. -/
def IssuesAlike (s s' : State) (i : Instr) : Prop :=
  ∃ c, exec i s = issue i s c ∧ exec i s' = issue i s' c

section
variable {s s' : State} {i : Instr} {a b c : Reg}

/-- A command that goes on from the operand of one register. -/
theorem issuesAlike_of_one (f : FixedInt → Except CmdError Latched) (ha : s'.reg a = s.reg a)
    (hexec : ∀ t, exec i t = issue i t (readOperand t a >>= f)) : IssuesAlike s s' i :=
  ⟨_, hexec s, by rw [hexec s', readOperand_congr ha]⟩

/-- A command that goes on from the operands of two registers. -/
theorem issuesAlike_of_two (f : FixedInt → FixedInt → Except CmdError Latched)
    (h : ∀ r ∈ [a, b], s'.reg r = s.reg r)
    (hexec : ∀ t, exec i t = issue i t (do
      let x ← readOperand t a
      let y ← readOperand t b
      f x y)) : IssuesAlike s s' i := by
  simp only [List.forall_mem_cons] at h
  obtain ⟨ha, hb, -⟩ := h
  exact ⟨_, hexec s, by rw [hexec s', readOperand_congr ha, readOperand_congr hb]⟩

/-- A command that goes on from the operands of three registers. -/
theorem issuesAlike_of_three (f : FixedInt → FixedInt → FixedInt → Except CmdError Latched)
    (h : ∀ r ∈ [a, b, c], s'.reg r = s.reg r)
    (hexec : ∀ t, exec i t = issue i t (do
      let x ← readOperand t a
      let y ← readOperand t b
      let z ← readOperand t c
      f x y z)) : IssuesAlike s s' i := by
  simp only [List.forall_mem_cons] at h
  obtain ⟨ha, hb, hc, -⟩ := h
  exact ⟨_, hexec s, by rw [hexec s', readOperand_congr ha, readOperand_congr hb, readOperand_congr hc]⟩

/-- All commands: the "reads" column and WMAX decide the checks and what is latched. -/
theorem exec_issuesAlike (i : Instr) (hwmax : s'.wmax = s.wmax) (h : ∀ r ∈ readsOf i, s'.reg r = s.reg r) :
    IssuesAlike s s' i := by
  cases i with
  | create a k | small a v k =>
    exact ⟨_, rfl, congrArg (issue _ s') (by rw [checkWidth_congr hwmax])⟩
  | widen a b k =>
    exact ⟨_, rfl, congrArg (issue _ s') (by rw [checkWidth_congr hwmax, readOperand_congr (h b (.head _))])⟩
  | clear a | nz a | sdc a | even a | shl a k => exact issuesAlike_of_one _ (h a (.head _)) fun _ => rfl
  | assign a b | eq a b | gt a b | ge a b | add a b | sub a b | mul a b | div a b | mod a b | divrem _ _ a b =>
    exact issuesAlike_of_two _ h fun _ => rfl
  | mulmod a b c | powmod _ a b c => exact issuesAlike_of_three _ h fun _ => rfl

/-- While idle, an issue starts the command only by latching it. -/
theorem issueWord_eq_startedIssue_iff (idle : s.busy = false) (x : Word) (c : Except CmdError Latched) (l : Latched) :
    s.issueWord x c = startedIssue s x l ↔ c = .ok l := by
  refine ⟨fun h => ?_, fun h => h ▸ issueWord_eq_startedIssue idle x l⟩
  have hseq : (s.issueWord x c).seq = .exec l := by rw [h]; rfl
  cases c with
  | error e =>
    rw [issueWord_of_error idle, raiseCmdError_seq, beginIssue_seq, seq_idle_of_not_busy idle] at hseq
    cases hseq
  | ok l' =>
    rw [issueWord_of_ok idle, startExec_seq, Seq.exec.injEq] at hseq
    rw [hseq]

end

/-- Settles O32: the two issues have one outcome, and the first one's is the latched command. -/
theorem resultsDependOnlyOnLatchedOperands : Obligations.ResultsDependOnlyOnLatchedOperands := by
  unfold Obligations.ResultsDependOnlyOnLatchedOperands
  intro i s s' l idle idle' hwmax hreads hstart
  obtain ⟨c, hexec, hexec'⟩ := exec_issuesAlike i hwmax hreads
  have hc : c = .ok l := by
    rw [hexec, issue_next, Host.Outcome.next.injEq, issueWord_eq_startedIssue_iff idle] at hstart
    exact hstart
  rw [hexec', issue_next, hc, issueWord_eq_startedIssue idle']

end Sys2Proof.Proofs

/-! PROOFS. Execution and commit (50_command_cycle.md R259 to R263): engine steps alone emit the events and commit, and
no host access between them changes what is committed. -/

namespace Sys2Proof.Proofs

open Sys2Proof Sys2Proof.Machine

/-! ### Engine steps alone (50_command_cycle.md R260, R263) -/

/-- PROGRESS after a list of events. -/
theorem getLastD_map_ofNat (events : List Nat) (p : BitVec 16) : (events.map (BitVec.ofNat 16)).getLastD p =
    if events = [] then p else BitVec.ofNat 16 (events.getLastD 0) := by
  split_ifs with h
  · rw [h, List.map_nil, List.getLastD_nil]
  · rw [List.getLastD_eq_getLast?, List.getLastD_eq_getLast?, List.getLast?_map, List.getLast?_eq_some_getLast h]
    rfl

/-- Settles O15: `afterRun` is the state that the statement writes out. -/
theorem engineEmitsEventsThenCommits : Obligations.EngineEmitsEventsThenCommits := by
  unfold Obligations.EngineEmitsEventsThenCommits
  intro s l hs
  rw [← getLastD_map_ofNat]
  exact runsTo_afterRun hs

/-! ### Other agents between the engine steps (50_command_cycle.md R259) -/

/-- Two states that agree on what a command reads or commits to, and on CMD and WMAX. -/
structure SameRegisters (t s : State) : Prop where
  regs : t.regs = s.regs
  result : t.result = s.result
  cmd : t.cmd = s.cmd
  wmax : t.wmax = s.wmax

theorem SameRegisters.trans {s t u : State} (h : SameRegisters u t) (h' : SameRegisters t s) : SameRegisters u s :=
  ⟨h.regs.trans h'.regs, h.result.trans h'.result, h.cmd.trans h'.cmd, h.wmax.trans h'.wmax⟩

theorem SameRegisters.commit {s t : State} (h : SameRegisters t s) (l : Latched) :
    SameRegisters (t.commit l) (s.commit l) where
  regs := by rw [commit_regs, commit_regs, h.regs]
  result := by rw [commit_result, commit_result, h.result]
  cmd := h.cmd
  wmax := h.wmax

/-- A host access while BUSY: it issues nothing and writes no window byte (20_memory.md R74). -/
theorem hostEffect_of_busy {s t : State} {e : Event} (h : Effect s e t) (hbusy : s.busy = true)
    (hengine : e ≠ .engine) (hreset : e ≠ .reset) : t.seq = s.seq ∧ t.schedule = s.schedule ∧ SameRegisters t s := by
  cases h with
  | issued _ _ _ idle | windowWritten _ _ _ _ idle => exact absurd (hbusy.symm.trans idle) (by decide)
  | engineStepped => exact absurd rfl hengine
  | wasReset => exact absurd rfl hreset
  | readDone | readRefused | writeRefused | ctrlSet | acknowledged | ignored => exact ⟨rfl, rfl, rfl, rfl, rfl, rfl⟩

/-- A step on a host access while a command runs. -/
theorem step_hostAccess_of_exec {s : State} {l : Latched} {e : Event} {rest : List Event} (hs : s.seq = .exec l)
    (hsched : s.schedule = e :: rest) (hin : InBlock e) (hengine : e ≠ .engine) (hreset : e ≠ .reset) :
    ∃ t, step s = .next t ∧ t.seq = .exec l ∧ t.schedule = rest ∧ SameRegisters (t.commit l) (s.commit l) := by
  obtain ⟨t, ht⟩ := perform_of_inBlock { s with schedule := rest } hin
  have heffect : Effect { s with schedule := rest } e t := by
    rcases perform_effect { s with schedule := rest } e with hf | ⟨u, hu, he⟩
    · cases hf.symm.trans ht
    · cases hu.symm.trans ht
      exact he
  obtain ⟨hseq, hrest, hsame⟩ := hostEffect_of_busy heffect (busy_of_exec _ l hs) hengine hreset
  have hsame' : SameRegisters t s := hsame.trans ⟨rfl, rfl, rfl, rfl⟩
  exact ⟨t, (step_of_cons hsched).trans ht, hseq.trans hs, hrest, hsame'.commit l⟩

/-- A step on an engine event while progress events are left. -/
theorem step_engine_event {s : State} {l : Latched} {rest : List Event} {k : Nat} {ks : List Nat} (hs : s.seq = .exec l)
    (hsched : s.schedule = .engine :: rest) (hp : l.pending = k :: ks) :
    step s = .next (State.emitProgress { s with schedule := rest } l k ks) :=
  (step_of_cons hsched).trans (congrArg Host.Outcome.next (engineStep_event hs hp))

/-- A step on an engine event after the last progress event. -/
theorem step_engine_commit {s : State} {l : Latched} {rest : List Event} (hs : s.seq = .exec l)
    (hsched : s.schedule = .engine :: rest) (hp : l.pending = []) :
    step s = .next (State.commit { s with schedule := rest } l) :=
  (step_of_cons hsched).trans (congrArg Host.Outcome.next (engineStep_commit hs hp))

theorem run_succ_of_step {s t : State} (h : step s = .next t) (n : Nat) : core.run (n + 1) s = core.run n t := by
  have hcore : core.step s = .next t := h
  simp only [Host.Core.run, hcore]

/-- Under a schedule that gives the engine its events' steps and one more, a command commits as it would at once. -/
theorem run_commits (evs rest : List Event) (s : State) (l : Latched) (hs : s.seq = .exec l)
    (hsched : s.schedule = evs ++ .engine :: rest) (hcount : evs.count .engine = l.pending.length)
    (hreset : Event.reset ∉ evs) (hin : ∀ e ∈ evs, InBlock e) :
    ∃ t, core.run (evs.length + 1) s = .next t ∧ t.seq = .idle ∧ t.status.done = true ∧ t.schedule = rest ∧
      SameRegisters t (s.commit l) := by
  induction evs generalizing s l with
  | nil =>
    have hp : l.pending = [] := List.eq_nil_of_length_eq_zero hcount.symm
    exact ⟨_, run_succ_of_step (step_engine_commit hs hsched hp) 0, rfl, rfl, rfl, rfl, rfl, rfl, rfl⟩
  | cons e evs ih =>
    simp only [List.mem_cons, not_or] at hreset
    obtain ⟨hreset, hresets⟩ := hreset
    simp only [List.forall_mem_cons] at hin
    obtain ⟨hin, hins⟩ := hin
    by_cases he : e = .engine
    · subst he
      rw [List.count_cons_self] at hcount
      obtain ⟨k, ks, hp⟩ := List.exists_cons_of_length_eq_add_one hcount.symm
      rw [hp, List.length_cons, Nat.add_right_cancel_iff] at hcount
      obtain ⟨t, hrun, hidle, hdone, hrest, hsame⟩ := ih _ _
        (emitProgress_seq { s with schedule := evs ++ .engine :: rest } l k ks) rfl hcount hresets hins
      exact ⟨t, (run_succ_of_step (step_engine_event hs hsched hp) _).trans hrun, hidle, hdone, hrest,
        hsame.trans ⟨rfl, rfl, rfl, rfl⟩⟩
    · rw [List.count_cons_of_ne he] at hcount
      obtain ⟨u, hstep, hseq, hu, hcommit⟩ := step_hostAccess_of_exec hs hsched hin he (Ne.symm hreset)
      obtain ⟨t, hrun, hidle, hdone, hrest, hsame⟩ := ih u l hseq hu hcount hresets hins
      exact ⟨t, (run_succ_of_step hstep _).trans hrun, hidle, hdone, hrest, hsame.trans hcommit⟩

/-- Settles O16, by induction on the schedule: each event leaves the commit to come as it is. -/
theorem everyInterleavingCommitsTheSameResult : Obligations.EveryInterleavingCommitsTheSameResult := by
  unfold Obligations.EveryInterleavingCommitsTheSameResult
  intro s l evs rest hs hsched hcount hreset hin
  obtain ⟨t, hrun, hidle, hdone, hrest, hsame⟩ := run_commits evs rest s l hs hsched hcount hreset hin
  exact ⟨t, hrun, hidle, hsame.regs, hsame.result, hdone, hsame.cmd, hsame.wmax, hrest⟩

end Sys2Proof.Proofs

/-! PROOFS. The issue checks (60_exceptions.md R284 to R288): once, for every command, an issue fails with the number of
the first check that fails, and else latches the command by its row of the register-role table (30_encoding.md R110). -/

namespace Sys2Proof.Proofs

open Sys2Proof Sys2Proof.Machine

section
variable {s : State} {i : Instr}

/-! ### The checks of R284 in order -/

/-- Checks outside 3 to 7 do not exist. -/
theorem checkFails_range {n : Nat} (h : checkFails s i n) : 3 ≤ n ∧ n ≤ 7 := by
  unfold checkFails at h
  split at h
  case h_6 => exact h.elim
  all_goals decide

/-- No check before check `n` fails. -/
def Passed (s : State) (i : Instr) (n : Nat) : Prop := ∀ k, k < n → ¬ checkFails s i k

/-- Check `n` is the first that fails. -/
def FirstFails (s : State) (i : Instr) (n : Nat) : Prop := checkFails s i n ∧ Passed s i n

theorem FirstFails.unique {m n : Nat} (hm : FirstFails s i m) (hn : FirstFails s i n) : m = n := by
  obtain ⟨hfail, hpassed⟩ := hm
  obtain ⟨hfail', hpassed'⟩ := hn
  rcases Nat.lt_trichotomy m n with h | h | h
  · exact absurd hfail (hpassed' m h)
  · exact h
  · exact absurd hfail' (hpassed n h)

theorem Passed.not_firstFails (h : Passed s i 8) (n : Nat) : ¬ FirstFails s i n := by
  intro hfirst
  obtain ⟨hfail, -⟩ := hfirst
  exact h n (Nat.lt_succ_of_le (checkFails_range hfail).2) hfail

theorem Passed.succ {n : Nat} (h : Passed s i n) (hn : ¬ checkFails s i n) : Passed s i (n + 1) :=
  Nat.forall_lt_succ_right.2 ⟨h, hn⟩

theorem passed_of_forall {n : Nat} (h : ∀ k, 3 ≤ k → k < n → ¬ checkFails s i k) : Passed s i n :=
  fun k hk hfail => h k (checkFails_range hfail).1 hk hfail

/-- The issue checks on the registers and the immediates begin at 3 (60_exceptions.md R284). -/
theorem passed_three : Passed s i 3 :=
  passed_of_forall fun _ hlow hhigh => absurd hhigh (Nat.not_lt_of_le hlow)

/-- Check 3, on the width immediate (30_encoding.md R103). -/
theorem passed_four (h : ¬ badWidthImmediate s i) : Passed s i 4 := passed_three.succ h

/-- Check 4, on the "reads" column (60_exceptions.md R285). -/
theorem Passed.five (h : Passed s i 4) (hreads : ∀ r ∈ readsOf i, (s.reg r).width ≠ 0#8) : Passed s i 5 :=
  h.succ fun ⟨r, hr, hz⟩ => hreads r hr hz

/-- Check 5, on the "same width" column (60_exceptions.md R286). -/
theorem Passed.six {w : Byte} (h : Passed s i 5) (hsame : ∀ r ∈ sameWidthOf i, (s.reg r).width = w) : Passed s i 6 :=
  h.succ fun ⟨r, hr, q, hq, hne⟩ => hne ((hsame r hr).trans (hsame q hq).symm)

/-- Checks 6 and 7, for a command that is not a division (60_exceptions.md R287, R288). -/
theorem Passed.eight_of_no_divisor (h : Passed s i 6) (hconflict : ¬ conflictingDestinations i)
    (hdivisor : divisorOf i = none) : Passed s i 8 :=
  (h.succ hconflict).succ fun ⟨_, hr, _⟩ => nomatch hdivisor.symm.trans hr

/-- Checks 4 and 5, for a command all of whose operands have the width `w`. -/
theorem Passed.six_of_operands {w : Byte} (h : Passed s i 4) (hsame : sameWidthOf i = readsOf i) (hw : w ≠ 0#8)
    (hoperands : ∀ r ∈ readsOf i, (s.reg r).width = w) : Passed s i 6 :=
  (h.five fun r hr => hoperands r hr ▸ hw).six (hsame ▸ hoperands)

/-! ### What an issue decides -/

/-- What is latched is what the command's row of the register-role table says (30_encoding.md R110). -/
structure MatchesRow (s : State) (i : Instr) (l : Latched) : Prop where
  instr : l.instr = i
  operands : l.operands = (readsOf i).map s.reg
  destinations : l.writes.map (fun p => (p.1, p.2.width)) = writesOf s i
  resultRole : l.result.isSome = writesResult i

/-- The two outcomes of the checks of command `i` in `s`. -/
inductive IssueOutcome (s : State) (i : Instr) : Except CmdError Latched → Prop
  | fails {e : CmdError} (first : FirstFails s i (errorCode e).toNat) : IssueOutcome s i (.error e)
  | passes {l : Latched} (passed : Passed s i 8) (row : MatchesRow s i l) : IssueOutcome s i (.ok l)

/-! ### A chain of checks, check by check -/

section
variable {f : FixedInt → Except CmdError Latched} {g : Unit → Except CmdError Latched} {a b r q : Reg} {k : Byte}

theorem IssueOutcome.legalWidth (hk : badWidthImmediate s i ↔ k.toNat = 0 ∨ s.wmax.toNat < k.toNat)
    (h : Passed s i 4 → IssueOutcome s i (g ())) : IssueOutcome s i (checkWidth s k >>= g) := by
  by_cases hbad : k.toNat = 0 ∨ s.wmax.toNat < k.toNat
  · rw [checkWidth_bind_of_bad hbad]
    exact .fails ⟨hk.2 hbad, passed_three⟩
  · rw [(checkWidth_ok_iff s k).2 (by omega)]
    exact h (passed_four (hk.not.2 hbad))

theorem IssueOutcome.read (h4 : Passed s i 4) (hr : r ∈ readsOf i)
    (h : (s.reg r).width ≠ 0#8 → IssueOutcome s i (f (s.reg r))) : IssueOutcome s i (readOperand s r >>= f) := by
  by_cases hz : (s.reg r).width = 0#8
  · rw [readOperand_of_unallocated hz]
    exact .fails ⟨⟨r, hr, hz⟩, h4⟩
  · rw [readOperand_of_allocated hz]
    exact h hz

theorem IssueOutcome.sameWidth (h5 : Passed s i 5) (hr : r ∈ sameWidthOf i) (hq : q ∈ sameWidthOf i)
    (h : (s.reg r).width = (s.reg q).width → IssueOutcome s i (g ())) :
    IssueOutcome s i (checkSameWidth (s.reg r) (s.reg q) >>= g) := by
  by_cases hw : (s.reg r).width = (s.reg q).width
  · rw [checkSameWidth_of_eq hw]
    exact h hw
  · rw [checkSameWidth_of_ne hw]
    exact .fails ⟨⟨r, hr, q, hq, hw⟩, h5⟩

theorem IssueOutcome.distinct (h6 : Passed s i 6) (hab : conflictingDestinations i ↔ a = b)
    (h : Passed s i 7 → IssueOutcome s i (g ())) : IssueOutcome s i (checkDistinct a b >>= g) := by
  by_cases heq : a = b
  · rw [heq, checkDistinct_self]
    exact .fails ⟨hab.2 heq, h6⟩
  · rw [checkDistinct_of_ne heq]
    exact h (h6.succ (hab.not.2 heq))

theorem IssueOutcome.divisor (h7 : Passed s i 7) (hr : divisorOf i = some r)
    (h : Passed s i 8 → IssueOutcome s i (g ())) : IssueOutcome s i (checkDivisor (s.reg r) >>= g) := by
  by_cases hz : (s.reg r).val = 0
  · rw [checkDivisor_of_eq hz]
    exact .fails ⟨⟨r, hr, hz⟩, h7⟩
  · rw [checkDivisor_of_ne hz]
    exact h (h7.succ fun ⟨_, hr', hz'⟩ => hz (Option.some.inj (hr.symm.trans hr') ▸ hz'))

end

/-! ### The chains that commands share -/

section
variable {a b c : Reg} (h3 : ¬ badWidthImmediate s i)
include h3

/-- A command of one operand and no further check. -/
theorem IssueOutcome.oneOperand {f : FixedInt → Except CmdError Latched} (hreads : readsOf i = [a])
    (hsame : sameWidthOf i = []) (h : Passed s i 6 → IssueOutcome s i (f (s.reg a))) :
    IssueOutcome s i (readOperand s a >>= f) :=
  have h4 := passed_four h3
  .read h4 (by simp [hreads]) fun ha =>
    h ((h4.five (by simp [hreads, ha])).six (w := 0#8) (by simp [hsame]))

/-- A command of two operands of one width. -/
theorem IssueOutcome.twoOperands {f : FixedInt → FixedInt → Except CmdError Latched} (hreads : readsOf i = [a, b])
    (hsame : sameWidthOf i = [a, b]) (h : Passed s i 6 → IssueOutcome s i (f (s.reg a) (s.reg b))) :
    IssueOutcome s i (do
      let x ← readOperand s a
      let y ← readOperand s b
      checkSameWidth x y
      f x y) := by
  have h4 := passed_four h3
  refine .read h4 (by simp [hreads]) fun ha => .read h4 (by simp [hreads]) fun hb => ?_
  have h5 : Passed s i 5 := h4.five (by simp [hreads, ha, hb])
  exact .sameWidth h5 (by simp [hsame]) (by simp [hsame]) fun hab =>
    h (h5.six (w := (s.reg a).width) (by simp [hsame, hab]))

/-- A command of three operands of one width. -/
theorem IssueOutcome.threeOperands {f : FixedInt → FixedInt → FixedInt → Except CmdError Latched}
    (hreads : readsOf i = [a, b, c]) (hsame : sameWidthOf i = [a, b, c])
    (h : Passed s i 6 → IssueOutcome s i (f (s.reg a) (s.reg b) (s.reg c))) :
    IssueOutcome s i (do
      let x ← readOperand s a
      let y ← readOperand s b
      let z ← readOperand s c
      checkSameWidth x y
      checkSameWidth x z
      f x y z) := by
  have h4 := passed_four h3
  refine .read h4 (by simp [hreads]) fun ha => .read h4 (by simp [hreads]) fun hb =>
    .read h4 (by simp [hreads]) fun hc => ?_
  have h5 : Passed s i 5 := h4.five (by simp [hreads, ha, hb, hc])
  refine .sameWidth h5 (by simp [hsame]) (by simp [hsame]) fun hab =>
    .sameWidth h5 (by simp [hsame]) (by simp [hsame]) fun hac => ?_
  exact h (h5.six (w := (s.reg a).width) (by simp [hsame, ← hab, ← hac]))

end

/-- All commands: each makes the checks of its columns in the order of R284. -/
theorem exec_outcome (i : Instr) (s : State) : ∃ c, exec i s = issue i s c ∧ IssueOutcome s i c := by
  cases i with
  | create a k | small a v k =>
    refine ⟨_, rfl, .legalWidth Iff.rfl fun h4 => .passes ?_ ⟨rfl, rfl, rfl, rfl⟩⟩
    exact ((h4.five nofun).six (w := 0#8) nofun).eight_of_no_divisor id rfl
  | widen a b k =>
    refine ⟨_, rfl, .legalWidth Iff.rfl fun h4 => .read h4 (.head _) fun hb => .passes ?_ ⟨rfl, rfl, rfl, rfl⟩⟩
    exact ((h4.five (List.forall_mem_singleton.2 hb)).six (w := 0#8) nofun).eight_of_no_divisor id rfl
  | assign a b =>
    have h4 : Passed s (.assign a b) 4 := passed_four id
    refine ⟨_, rfl, .read h4 (.head _) fun ha => .read h4 (.tail _ (.head _)) fun hb =>
      .passes ?_ ⟨rfl, rfl, rfl, rfl⟩⟩
    exact ((h4.five (by simp [readsOf, ha, hb])).six (w := 0#8) nofun).eight_of_no_divisor id rfl
  | clear a | nz a | sdc a | even a | shl a k =>
    exact ⟨_, rfl, .oneOperand id rfl rfl fun h6 =>
      .passes (h6.eight_of_no_divisor id rfl) ⟨rfl, rfl, rfl, rfl⟩⟩
  | eq a b | gt a b | ge a b | add a b | sub a b | mul a b =>
    exact ⟨_, rfl, .twoOperands id rfl rfl fun h6 =>
      .passes (h6.eight_of_no_divisor id rfl) ⟨rfl, rfl, rfl, rfl⟩⟩
  | div a b | mod a b =>
    exact ⟨_, rfl, .twoOperands id rfl rfl fun h6 => .divisor (h6.succ id) rfl fun h8 =>
      .passes h8 ⟨rfl, rfl, rfl, rfl⟩⟩
  | divrem a b c d =>
    exact ⟨_, rfl, .twoOperands id rfl rfl fun h6 => .distinct h6 Iff.rfl fun h7 => .divisor h7 rfl fun h8 =>
      .passes h8 ⟨rfl, rfl, rfl, rfl⟩⟩
  | mulmod a b c | powmod _ a b c =>
    exact ⟨_, rfl, .threeOperands id rfl rfl fun h6 => .divisor (h6.succ id) rfl fun h8 =>
      .passes h8 ⟨rfl, rfl, rfl, rfl⟩⟩

/-! ### What the host sees of it -/

/-- While idle, the code of a failed issue is the number of the first check that fails. -/
theorem exec_eq_failedIssue_iff (idle : s.busy = false) {n : Nat} (hn : n < 256) :
    exec i s = .next (failedIssue s (encode i) (BitVec.ofNat 8 n)) ↔ FirstFails s i n := by
  obtain ⟨c, hexec, houtcome⟩ := exec_outcome i s
  rw [hexec, issue_next, Host.Outcome.next.injEq]
  cases houtcome with
  | @fails e first =>
    rw [issueWord_eq_failedIssue idle]
    refine ⟨fun h => ?_, fun h => ?_⟩
    · have hcode : errorCode e = BitVec.ofNat 8 n := congrArg (·.status.errcode) h
      rwa [hcode, BitVec.toNat_ofNat, Nat.mod_eq_of_lt hn] at first
    · rw [h.unique first, BitVec.ofNat_toNat, BitVec.setWidth_eq]
  | passes passed row =>
    rw [issueWord_eq_startedIssue idle]
    refine ⟨fun h => ?_, fun h => absurd h (passed.not_firstFails n)⟩
    exact nomatch (congrArg (·.status.done) h : false = true)

/-- While idle, a command none of whose checks fails is latched by its row. -/
theorem exec_of_passed (idle : s.busy = false) (h : Passed s i 8) :
    ∃ l, exec i s = .next (startedIssue s (encode i) l) ∧ MatchesRow s i l := by
  obtain ⟨c, hexec, houtcome⟩ := exec_outcome i s
  cases houtcome with
  | fails first => exact absurd first (h.not_firstFails _)
  | @passes l _ row => exact ⟨l, by rw [hexec, issue_next, issueWord_eq_startedIssue idle], row⟩

end

/-! ### The obligations -/

/-- Settles O9: both clauses are read off the outcome of the checks. -/
theorem issueReportsFirstFailedCheck : Obligations.IssueReportsFirstFailedCheck := by
  unfold Obligations.IssueReportsFirstFailedCheck
  intro i s idle
  refine ⟨fun n _ hn hfail hfirst => ?fails, fun hpass => ?passes⟩
  case fails => exact (exec_eq_failedIssue_iff idle (by omega)).2 ⟨hfail, passed_of_forall hfirst⟩
  case passes =>
    obtain ⟨l, hexec, hrow⟩ := exec_of_passed idle
      (passed_of_forall fun k hlow hhigh => hpass k hlow (Nat.le_of_lt_succ hhigh))
    exact ⟨l, hexec, hrow.instr, hrow.operands, hrow.destinations, hrow.resultRole⟩

/-- Settles O11: code 4 is check 4, before which only the width immediate is checked. -/
theorem readingUnallocatedRegisterFails : Obligations.ReadingUnallocatedRegisterFails := by
  unfold Obligations.ReadingUnallocatedRegisterFails
  intro i s idle
  rw [Ne, exec_eq_failedIssue_iff idle (by decide)]
  refine ⟨fun himm hunallocated => ⟨hunallocated, passed_four himm⟩, fun hreads hfirst => ?never⟩
  case never =>
    obtain ⟨⟨r, hr, hz⟩, -⟩ := hfirst
    exact hreads r hr hz

/-- A command with operands of one width has no width immediate (30_encoding.md R110). -/
theorem not_badWidthImmediate_of_mem_sameWidthOf {s : State} {i : Instr} {r : Reg} (hr : r ∈ sameWidthOf i) :
    ¬ badWidthImmediate s i := by
  cases i with
  | create _ _ | small _ _ _ | widen _ _ _ => cases hr
  | _ => exact id

/-- Settles O12: code 5 is check 5, and the "same width" column of ASSIGN and WIDEN is empty. -/
theorem operandWidthsThatDifferFail : Obligations.OperandWidthsThatDifferFail := by
  unfold Obligations.OperandWidthsThatDifferFail
  intro i s idle
  simp only [Ne, exec_eq_failedIssue_iff idle (show 5 < 256 by decide)]
  refine ⟨fun hreads hdiffer => ?fails, fun a b k hi hfirst => ?never⟩
  case fails =>
    have ⟨r, hr, _⟩ := hdiffer
    exact ⟨hdiffer, (passed_four (not_badWidthImmediate_of_mem_sameWidthOf hr)).five hreads⟩
  case never =>
    obtain ⟨⟨r, hr, -⟩, -⟩ := hfirst
    rcases hi with rfl | rfl <;> cases hr

/-- Settles O13: code 6 is check 6, which comes before the check of the divisor. -/
theorem divremWithEqualDestinationsFails : Obligations.DivremWithEqualDestinationsFails := by
  unfold Obligations.DivremWithEqualDestinationsFails
  intro s idle
  simp only [exec_eq_failedIssue_iff idle (show 6 < 256 by decide)]
  refine ⟨fun a c d hc hd => ⟨rfl, ?passed⟩, fun i hfirst => ?only⟩
  case passed => exact (passed_four id).six_of_operands rfl hc (by simp [readsOf, hd])
  case only =>
    obtain ⟨hconflict, -⟩ := hfirst
    cases i with
    | divrem a b c d =>
      obtain rfl : a = b := hconflict
      exact ⟨a, c, d, rfl⟩
    | _ => exact False.elim hconflict

/-- Settles O14: code 7 is check 7, and the premises are the checks before it. -/
theorem zeroDivisorFails : Obligations.ZeroDivisorFails := by
  unfold Obligations.ZeroDivisorFails
  intro a b c d s idle
  simp only [exec_eq_failedIssue_iff idle (show 7 < 256 by decide)]
  refine ⟨fun hab hc hd hz => ?divrem, fun ha hb hz => ⟨?div, ?mod⟩, fun ha hb hc hz => ?mulmod,
    fun hb hc hd hz => ?powmod⟩
  case divrem =>
    exact ⟨⟨d, rfl, hz⟩, ((passed_four id).six_of_operands rfl hc (by simp [readsOf, hd])).succ hab⟩
  case div | mod =>
    exact ⟨⟨b, rfl, hz⟩, ((passed_four id).six_of_operands rfl ha (by simp [readsOf, hb])).succ id⟩
  case mulmod =>
    exact ⟨⟨c, rfl, hz⟩, ((passed_four id).six_of_operands rfl ha (by simp [readsOf, hb, hc])).succ id⟩
  case powmod =>
    exact ⟨⟨d, rfl, hz⟩, ((passed_four id).six_of_operands rfl hb (by simp [readsOf, hc, hd])).succ id⟩

end Sys2Proof.Proofs

/-! PROOFS. The interrupt level (60_exceptions.md R291) on the bits of STATUS and CTRL (10_state.md R28, R29). -/

namespace Sys2Proof.Proofs

open Sys2Proof Sys2Proof.Machine

/-! ### Bits of a word of one-bit fields -/

theorem getLsbD_append_bit_zero {n : Nat} (x : BitVec n) (b : Bool) : (x ++ bit b).getLsbD 0 = b := by
  simp [bit, BitVec.getElem_append]

theorem getLsbD_append_bit_succ {n : Nat} (x : BitVec n) (b : Bool) (k : Nat) :
    (x ++ bit b).getLsbD (k + 1) = x.getLsbD k := by
  simp [bit, BitVec.getLsbD_append]

section
variable (s : State)

theorem ctrlWord_bit_donie : (ctrlWord s).getLsbD 0 = s.ctrl.donie := by
  rw [ctrlWord, getLsbD_append_bit_zero]

theorem ctrlWord_bit_errie : (ctrlWord s).getLsbD 1 = s.ctrl.errie := by
  rw [ctrlWord, getLsbD_append_bit_succ, getLsbD_append_bit_zero]

theorem ctrlWord_bit_progie : (ctrlWord s).getLsbD 2 = s.ctrl.progie := by
  rw [ctrlWord, getLsbD_append_bit_succ, getLsbD_append_bit_succ, getLsbD_append_bit_zero]

theorem statusWord_bit_done : (statusWord s).getLsbD 1 = s.status.done := by
  rw [statusWord, getLsbD_append_bit_succ, getLsbD_append_bit_zero]

theorem statusWord_bit_err : (statusWord s).getLsbD 2 = s.status.err := by
  rw [statusWord, getLsbD_append_bit_succ, getLsbD_append_bit_succ, getLsbD_append_bit_zero]

theorem statusWord_bit_prog : (statusWord s).getLsbD 3 = s.status.prog := by
  rw [statusWord, getLsbD_append_bit_succ, getLsbD_append_bit_succ, getLsbD_append_bit_succ, getLsbD_append_bit_zero]

theorem statusWord_bit_accerr : (statusWord s).getLsbD 4 = s.status.accerr := by
  rw [statusWord, getLsbD_append_bit_succ, getLsbD_append_bit_succ, getLsbD_append_bit_succ, getLsbD_append_bit_succ,
    getLsbD_append_bit_zero]

end

/-- Settles O49: each bit of the equation is the flag or the enable that the level is made of. -/
theorem irqFollowsStatusAndCtrl : Obligations.IrqFollowsStatusAndCtrl := by
  unfold Obligations.IrqFollowsStatusAndCtrl
  intro s
  rw [statusWord_bit_done, statusWord_bit_err, statusWord_bit_accerr, statusWord_bit_prog, ctrlWord_bit_donie,
    ctrlWord_bit_errie, ctrlWord_bit_progie, State.irq]

end Sys2Proof.Proofs

/-! PROOFS. Hardware reset from any state (70_reset_and_hazards.md R321). -/

namespace Sys2Proof.Proofs

open Sys2Proof Sys2Proof.Machine

/-- The reset event has one outcome, whatever the sequencer does: it commits nothing and emits no progress event. -/
theorem step_reset (s : State) (rest : List Event) :
    step { s with schedule := .reset :: rest } = .next ({ s with schedule := rest } : State).hardReset := by
  rw [step_of_cons (e := .reset) (rest := rest) rfl, perform]

@[simp] theorem hardReset_reg (s : State) (r : Reg) : s.hardReset.reg r = ⟨0#8, 0⟩ := by
  simp [State.reg]

/-- With every status flag 0 no cause drives IRQ (60_exceptions.md R291). -/
@[simp] theorem hardReset_irq (s : State) : s.hardReset.irq = false := by
  simp [State.irq]

/-- Settles O51: the step is the hardware reset of the state with the event consumed, and each field is read off. -/
theorem hardwareResetFromAnyState : Obligations.HardwareResetFromAnyState := by
  unfold Obligations.HardwareResetFromAnyState
  intro s rest
  exact ⟨_, step_reset s rest, hardReset_reg _, hardReset_wmax _, hardReset_ctrl _, hardReset_status _,
    hardReset_cmd _, hardReset_result _, hardReset_progress _, hardReset_seq _, hardReset_irq _,
    hardReset_schedule _⟩

end Sys2Proof.Proofs
